-- ==== Sys2Proof/Word.lean ====
section
/-! DEFINITION. The word types of the core: widths and shapes only (spec 00_scope.md rule R7, 10_state.md rules R21, R25, R28, R29). -/

namespace Sys2Proof

/-- One instruction word (R70: every instruction is one 32-bit word). -/
abbrev Word := BitVec 32

/-- One lane of a vector register: a 16-bit pattern (R7, R9). -/
abbrev Lane := BitVec 16

/-- One value of a vector register: 8 lanes of 16 bits, indexed by lane number (R21). The 128-bit word and
the byte view are computed from it in Machine/Views.lean (R23, R51; log entry 22). -/
abbrev Vec := Vector Lane 8

/-- One accumulator lane: 48 bits (R25). -/
abbrev AccLane := BitVec 48

/-- The accumulator bank `ACC[0..7]` (R25). -/
abbrev AccBank := Vector AccLane 8

/-- A flag vector of 8 one-bit lanes, lane `i` at index `i` (R28, R29, R32: no packed format). -/
abbrev FlagVec := Vector Bool 8

/-- A vector register index, the 5-bit field of an instruction word: every value names a register (R72). -/
abbrev VReg := BitVec 5

/-- The 4-bit element field of an instruction word (R71, R72). -/
abbrev Elem := BitVec 4

/-- The 3-bit accumulator-slice select of VSAW (R35, R78). -/
abbrev Sel := BitVec 3

end Sys2Proof
end

