-- ==== Sys2Proof/Config.lean ====
section
/-! DEFINITION. The named parameters of the spec (00_scope.md rule R8). A state carries one setting of them, no step
changes it, and every statement is about every setting (log entry 1). -/

namespace Sys2Proof

/-- `P_SUB_POLICY` (R107): how VSUB saturates. -/
inductive SubPolicy where
  /-- The exact difference, clamped (R106); the default. -/
  | exact
  /-- The literal reading of the source's procedure (R107). -/
  | edgeOnly
  deriving DecidableEq, Repr

/-- `P_SAW_DECODE` (R78): how VSAW's 3-bit select comes out of the 4-bit element field. -/
inductive SawDecode where
  /-- `sel = e[2:0]`; the default. -/
  | low3
  /-- `sel4 = e XOR 0b1000`, legal iff `sel4 <= 2`. -/
  | xor8
  deriving DecidableEq, Repr

/-- `P_SAW_SLICE_MAP` (R191): which slice each legal select reads. -/
inductive SawSliceMap where
  /-- low, mid, high; the default. -/
  | doc
  /-- high, mid, low. -/
  | reversed
  deriving DecidableEq, Repr

/-- `P_SAW_ILLEGAL` (R193): what an illegal select leaves in the destination. -/
inductive SawIllegal where
  /-- The destination is returned unchanged; the default. -/
  | unchanged
  /-- All 8 lanes are written with 0. -/
  | zero
  deriving DecidableEq, Repr

/-- One setting of the parameters of R8 other than `P_INIT` (which is `Machine.Init`). -/
structure Params where
  subPolicy   : SubPolicy
  sawDecode   : SawDecode
  sawSliceMap : SawSliceMap
  sawIllegal  : SawIllegal
  deriving DecidableEq, Repr

/-- The defaults of R8: EXACT, LOW3, DOC, UNCHANGED. -/
def Params.default : Params :=
  { subPolicy := .exact, sawDecode := .low3, sawSliceMap := .doc, sawIllegal := .unchanged }

end Sys2Proof
end

