-- ==== Sys2Proof/Syntax.lean ====
section
/-! DEFINITION. The six instructions of the core (00_scope.md rule R2), the reasons a word is no instruction of it
(30_encoding.md rule R82), and one line of assembler text as data (30_encoding.md rule R83). -/

namespace Sys2Proof

/-- The opcode identity of a core transaction, the `op` port of R35 (R2). -/
inductive Op where
  | vadd | vsub | vabs | vaddc | vsubc | vsaw
  deriving DecidableEq, Repr

/-- The instructions, one constructor per row of spec/opcode_table.json, with the fields of format VC (R71):
destination `vd`, source `vs`, target `vt`, element field `e`. Every value of every field is legal (R72, R79), so the
field types alone make an instruction well formed. -/
inductive Instr where
  /-- R131. -/
  | vadd  (vd vs vt : VReg) (e : Elem)
  /-- R132. -/
  | vsub  (vd vs vt : VReg) (e : Elem)
  /-- R171. -/
  | vabs  (vd vs vt : VReg) (e : Elem)
  /-- R151. -/
  | vaddc (vd vs vt : VReg) (e : Elem)
  /-- R152. -/
  | vsubc (vd vs vt : VReg) (e : Elem)
  /-- R190: `vs` and `vt` are encoded and unused. -/
  | vsaw  (vd vs vt : VReg) (e : Elem)
  deriving DecidableEq, Repr

namespace Instr

/-- The opcode identity of an instruction. -/
def op : Instr → Op
  | .vadd _ _ _ _ => .vadd
  | .vsub _ _ _ _ => .vsub
  | .vabs _ _ _ _ => .vabs
  | .vaddc _ _ _ _ => .vaddc
  | .vsubc _ _ _ _ => .vsubc
  | .vsaw _ _ _ _ => .vsaw

/-- The destination register index. -/
def vd : Instr → VReg
  | .vadd d _ _ _ | .vsub d _ _ _ | .vabs d _ _ _ | .vaddc d _ _ _ | .vsubc d _ _ _ | .vsaw d _ _ _ => d

/-- The source register index. -/
def vs : Instr → VReg
  | .vadd _ s _ _ | .vsub _ s _ _ | .vabs _ s _ _ | .vaddc _ s _ _ | .vsubc _ s _ _ | .vsaw _ s _ _ => s

/-- The target register index. -/
def vt : Instr → VReg
  | .vadd _ _ t _ | .vsub _ _ t _ | .vabs _ _ t _ | .vaddc _ _ t _ | .vsubc _ _ t _ | .vsaw _ _ t _ => t

/-- The element field. -/
def e : Instr → Elem
  | .vadd _ _ _ e | .vsub _ _ _ e | .vabs _ _ _ e | .vaddc _ _ _ e | .vsubc _ _ _ e | .vsaw _ _ _ e => e

end Instr

/-- Why a word is no instruction of the core, by the names of R82. -/
inductive DecodeReject where
  /-- `w[31:26]` is not `010010`, or `w[25]` is not 1. -/
  | notCoreInstruction
  /-- The function code is none of the six of R73. -/
  | notCoreFunct
  deriving DecidableEq, Repr

/-- One line of assembler text with its numbers as written (R83): `e` absent means `[<e>]` was omitted. -/
structure AsmLine where
  op : Op
  vd : Nat
  vs : Nat
  vt : Nat
  e  : Option Nat
  deriving DecidableEq, Repr

end Sys2Proof
end

