-- ==== Sys2Proof/WellFormed.lean ====
section
/-! DEFINITION. Well-formedness. An `Instr` needs no check: every value of its typed fields is legal (30_encoding.md
rules R72, R79). What can be ill formed is a line of assembler text, whose numbers are unbounded as written: register
numbers are 0..31 and the element value is 0..15 (R83). -/

namespace Sys2Proof

/-- A register number of the assembler text names a register (R83: register numbers 0..31). -/
def asmRegOk (r : Nat) : Bool := decide (r < 32)

/-- An element value of the assembler text is one of 0..15, or is omitted (R83). -/
def asmElemOk : Option Nat → Bool
  | none => true
  | some e => decide (e < 16)

/-- The line is one the assembler accepts: four checks, one per number. -/
def AsmLine.wellFormed (l : AsmLine) : Bool :=
  asmRegOk l.vd && asmRegOk l.vs && asmRegOk l.vt && asmElemOk l.e

end Sys2Proof
end

