-- ==== Sys2Proof/Decode.lean ====
section
/-! DEFINITION. The instruction word (30_encoding.md rules R70 to R82): field extraction, the opcode map, decoding
with rejection by name, the encoder, and the assembler syntax of R83. The layout is the spec's decision D1, D2
(log entry 6). -/

namespace Sys2Proof

/-- `w[31:26]` (R71). -/
def fieldMajor (w : Word) : BitVec 6 := w.extractLsb' 26 6
/-- `w[25]` (R71). -/
def fieldCoBit (w : Word) : BitVec 1 := w.extractLsb' 25 1
/-- `w[24:21]` (R71). -/
def fieldE (w : Word) : Elem := w.extractLsb' 21 4
/-- `w[20:16]` (R71). -/
def fieldVt (w : Word) : VReg := w.extractLsb' 16 5
/-- `w[15:11]` (R71). -/
def fieldVs (w : Word) : VReg := w.extractLsb' 11 5
/-- `w[10:6]` (R71). -/
def fieldVd (w : Word) : VReg := w.extractLsb' 6 5
/-- `w[5:0]` (R71). -/
def fieldFunct (w : Word) : BitVec 6 := w.extractLsb' 0 6

/-- The function code of an opcode (R73). -/
def Op.funct : Op → BitVec 6
  | .vadd  => 0x10#6
  | .vsub  => 0x11#6
  | .vabs  => 0x13#6
  | .vaddc => 0x14#6
  | .vsubc => 0x15#6
  | .vsaw  => 0x1D#6

/-- The opcode a function code selects, if any (R73, R82). -/
def Op.ofFunct (f : BitVec 6) : Option Op :=
  if f = 0x10#6 then some .vadd
  else if f = 0x11#6 then some .vsub
  else if f = 0x13#6 then some .vabs
  else if f = 0x14#6 then some .vaddc
  else if f = 0x15#6 then some .vsubc
  else if f = 0x1D#6 then some .vsaw
  else none

/-- The instruction with the given opcode and operand fields. -/
def Instr.ofFields (op : Op) (vd vs vt : VReg) (e : Elem) : Instr :=
  match op with
  | .vadd  => .vadd vd vs vt e
  | .vsub  => .vsub vd vs vt e
  | .vabs  => .vabs vd vs vt e
  | .vaddc => .vaddc vd vs vt e
  | .vsubc => .vsubc vd vs vt e
  | .vsaw  => .vsaw vd vs vt e

/-- Decoding, as the pseudocode of R82: total on every 32-bit word, refusing by name. -/
def decode (w : Word) : Except DecodeReject Instr :=
  if fieldMajor w ≠ 0b010010#6 ∨ fieldCoBit w ≠ 1#1 then .error .notCoreInstruction
  else
    match Op.ofFunct (fieldFunct w) with
    | none => .error .notCoreFunct
    | some op => .ok (Instr.ofFields op (fieldVd w) (fieldVs w) (fieldVt w) (fieldE w))

/-- Format VC laid out from bit 31 down to bit 0, as the pattern string of R71:
`010010 1 eeee ttttt sssss ddddd ffffff`. -/
def encodeVC (funct : BitVec 6) (vd vs vt : VReg) (e : Elem) : Word :=
  0b010010#6 ++ 1#1 ++ e ++ vt ++ vs ++ vd ++ funct

/-- The word of an instruction (R71, R73, R74). -/
def encode (i : Instr) : Word :=
  encodeVC i.op.funct i.vd i.vs i.vt i.e

/-- The mask of every row of the opcode table (R74). -/
def opcodeMask : Word := 0xFE00003F#32

/-- The match value of an opcode's row (R74). -/
def Op.matchValue : Op → Word
  | .vadd  => 0x4A000010#32
  | .vsub  => 0x4A000011#32
  | .vabs  => 0x4A000013#32
  | .vaddc => 0x4A000014#32
  | .vsubc => 0x4A000015#32
  | .vsaw  => 0x4A00001D#32

/-- The 32-bit word whose low `nbits` bits are those of `w` and whose bits above are 0. Words are values, not byte
sequences (R52), so the table's numbering is the word's own. -/
def tableWord (nbits w : Nat) : Word := BitVec.ofNat 32 (w % 2 ^ nbits)

/-- The instruction the decoder reads from a word numbered as the opcode table numbers it. -/
def decodeTableWord (nbits w : Nat) : Option Instr :=
  match decode (tableWord nbits w) with
  | .ok i => some i
  | .error _ => none

/-- The lower-case mnemonic of the assembler syntax (R83). -/
def Op.name : Op → String
  | .vadd  => "vadd"
  | .vsub  => "vsub"
  | .vabs  => "vabs"
  | .vaddc => "vaddc"
  | .vsubc => "vsubc"
  | .vsaw  => "vsaw"

/-- The instruction a well-formed assembler line stands for; `[<e>]` omitted means `e = 0` (R83). -/
def AsmLine.assemble (l : AsmLine) : Option Instr :=
  if l.wellFormed then
    some (Instr.ofFields l.op (BitVec.ofNat 5 l.vd) (BitVec.ofNat 5 l.vs) (BitVec.ofNat 5 l.vt)
      (BitVec.ofNat 4 (l.e.getD 0)))
  else none

/-- The assembler line of an instruction, its element value written out (R83). -/
def Instr.toAsm (i : Instr) : AsmLine :=
  { op := i.op, vd := i.vd.toNat, vs := i.vs.toNat, vt := i.vt.toNat, e := some i.e.toNat }

/-- The text of an assembler line (R83): `<mnemonic> $v<vd>, $v<vs>, $v<vt>[<e>]`, the bracket left out where the
element value is omitted. -/
def AsmLine.render (l : AsmLine) : String :=
  l.op.name ++ " $v" ++ toString l.vd ++ ", $v" ++ toString l.vs ++ ", $v" ++ toString l.vt ++
    (match l.e with
     | none => ""
     | some e => "[" ++ toString e ++ "]")

end Sys2Proof
end

