-- ==== Sys2Proof/Machine/State.lean ====
section
/-! DEFINITION. The state of the core (10_state.md rule R20), the events of the external decoder that a step reads
(log entries 2 and 4), the ports of a core transaction (R35), the reasons a step stops, and the initial states (R37, R240). -/

namespace Sys2Proof.Machine

/-- The kinds of diagnostic: there is one (R211, R212). -/
inductive DiagKind where
  /-- VSAW with an illegal select. -/
  | illegalSawElement
  deriving DecidableEq, Repr

/-- A diagnostic record, the pair `Diag(kind, sel)` of R212. -/
structure Diag where
  kind : DiagKind
  sel  : Sel
  deriving DecidableEq, Repr

/-- What an instruction of a peer family writes between two instructions of this block (R36): arbitrary values to any
of the three slices of the accumulator, to either flag vector, and to one destination register. `none` leaves the
element alone. The values stand in the event, so a statement about every state is about every value (log entry 4). -/
structure PeerWrite where
  accLo : Option Vec
  accMd : Option Vec
  accHi : Option Vec
  co    : Option FlagVec
  ne    : Option FlagVec
  vr    : Option (VReg × Vec)
  deriving DecidableEq, Repr

/-- One event the external decoder brings to the core: a word to run, or an instruction of a peer family that ran. -/
inductive Event where
  /-- The decoder hands the core one instruction word (R6, R100). -/
  | word (w : Word)
  /-- An instruction of a peer family ran (R36). -/
  | peer (p : PeerWrite)
  deriving DecidableEq, Repr

/-- The state. `vr`, `acc`, `co`, `ne` and `diag` are the architectural state of R20, all of it; `params` and `feed`
are the model's own: the parameters of R8 (log entry 1) and the events still to come (log entry 2). -/
structure State where
  /-- `VR[0..31]` (R21). -/
  vr     : Vector Vec 32
  /-- `ACC[0..7]` (R25). -/
  acc    : AccBank
  /-- `co[0..7]`, the carry/borrow flags (R28). -/
  co     : FlagVec
  /-- `ne[0..7]`, the not-equal flags (R29). -/
  ne     : FlagVec
  /-- `DIAG`, oldest record first (R34). -/
  diag   : List Diag
  /-- The model's own: the parameters, never changed by a step. -/
  params : Params
  /-- The model's own: what the external decoder brings next, first event first. -/
  feed   : List Event
  deriving DecidableEq, Repr

/-- The inputs of a core transaction (R35): the operands after the broadcast, the select, and the shared state. -/
structure CoreIn where
  dIn : Vec
  sIn : Vec
  tIn : Vec
  sel : Sel
  acc : AccBank
  co  : FlagVec
  ne  : FlagVec
  deriving DecidableEq, Repr

/-- The outputs of a core transaction (R35): the destination value, the shared state after it, and the diagnostic
record, present iff the strobe `diag_valid` is 1. -/
structure CoreOut where
  dOut : Vec
  acc  : AccBank
  co   : FlagVec
  ne   : FlagVec
  diag : Option Diag
  deriving DecidableEq, Repr

/-- The reasons the machine stops with a fault: none. No instruction of the core raises an exception, traps or stops
the run (R210), so the type has no constructor and no step can answer with a fault. -/
inductive Fault where
  deriving DecidableEq, Repr

/-- The reasons a step gives no meaning to what it was handed. -/
inductive Refusal where
  /-- Raised by `exec` alone, for an instruction whose meaning is not written yet; no arm does. Safe. -/
  | notModelled (mnemonic : String)
  /-- Raised by `invokeWord` for a word whose `w[31:25]` is not `0100101`: another family's or the scalar decoder's,
  to which the spec gives no meaning (R80, R82). Safe. -/
  | notCoreInstruction (w : Word)
  /-- Raised by `invokeWord` for a word of the vector computational format whose function code is none of the six
  (R80, R82). Safe. -/
  | notCoreFunct (w : Word)
  deriving DecidableEq, Repr

/-- The parameter `P_INIT`: one assignment of every bit of the registers, the accumulator and the flags (R240). -/
structure Init where
  vr  : Vector Vec 32
  acc : AccBank
  co  : FlagVec
  ne  : FlagVec
  deriving DecidableEq, Repr

/-- The state a core instance starts in under `P_INIT = init`: those values, and `DIAG` empty (R37, R240). No event is
waiting. -/
def State.initial (p : Params) (init : Init) : State :=
  { vr := init.vr, acc := init.acc, co := init.co, ne := init.ne, diag := [], params := p, feed := [] }

/-- The instance of `P_INIT` that `State.reset` starts from. DESIGN CHOICE (log entry 5): the spec leaves the initial
values open and says a model must not pick zero (R240), so every register lane differs from every neighbour, the
accumulator is that of spec 95_test_vectors.md section 3.4 and the flags are those of its section 3.3. -/
def Init.resetChoice : Init :=
  { vr  := Vector.ofFn fun r : Fin 32 => Vector.ofFn fun i : Fin 8 => BitVec.ofNat 16 (0xA000 + 16 * r.val + i.val)
    acc := Vector.ofFn fun i : Fin 8 => BitVec.ofNat 48 (0x111122223333 + i.val)
    co  := #v[true, false, true, false, true, false, true, false]
    ne  := #v[false, true, false, true, false, true, false, true] }

/-- The machine right after reset: the defaults of the parameters (R8) and the instance of `P_INIT` above. The source
defines no reset (R240); a statement that matters is about every state, and none rests on these values. -/
def State.reset : State := State.initial Params.default Init.resetChoice

end Sys2Proof.Machine
end

