-- ==== Sys2Proof/Machine/Lanes.lean ====
section
/-! DEFINITION. The pure lane functions (40_primitives.md rules R104 to R111, 43_abs.md rule R170, and the notation of
00_scope.md rules R9, R10): exact arithmetic on unbounded integers, narrowed at the end. -/

namespace Sys2Proof.Machine

/-- `s16(v)`: the two's-complement reading (R9). -/
abbrev s16 (v : Lane) : Int := v.toInt

/-- `u16(v)`: the unsigned reading (R9). -/
abbrev u16 (v : Lane) : Int := (v.toNat : Int)

/-- `trunc16(n) = n mod 2^16` as a pattern (R10). -/
def trunc16 (n : Int) : Lane := BitVec.ofInt 16 n

/-- `clamp16(n)` (R10). -/
def clamp16 (n : Int) : Lane :=
  if n > 32767 then 0x7FFF#16 else if n < -32768 then 0x8000#16 else trunc16 n

/-- A flag bit as the integer 0 or 1. -/
def carryInt (c : Bool) : Int := if c then 1 else 0

/-- `SIGNED_CLAMP_ADD(a, b, c)` (R104; the source's procedure of R105 is informative, 90_conflicts.md C3). -/
def signedClampAdd (a b : Lane) (c : Bool) : Lane := clamp16 (s16 a + s16 b + carryInt c)

/-- `SIGNED_CLAMP_SUB(a, b, c)` under `P_SUB_POLICY = EXACT` (R106, 90_conflicts.md C2). -/
def signedClampSubExact (a b : Lane) (c : Bool) : Lane := clamp16 (s16 a - s16 b - carryInt c)

/-- `SIGNED_CLAMP_SUB_EDGE_ONLY(a, b, c)` (R107). -/
def signedClampSubEdgeOnly (a b : Lane) (c : Bool) : Lane :=
  if c = true ∧ s16 a - s16 b = 32768 then 0x7FFF#16
  else clamp16 (s16 (clamp16 (s16 a - s16 b)) - carryInt c)

/-- `SIGNED_CLAMP_SUB` as `P_SUB_POLICY` selects it (R107). -/
def signedClampSub (p : SubPolicy) (a b : Lane) (c : Bool) : Lane :=
  match p with
  | .exact => signedClampSubExact a b c
  | .edgeOnly => signedClampSubEdgeOnly a b c

/-- `ACC_ADD(a, b, c)` (R109). -/
def accAdd (a b : Lane) (c : Bool) : Lane := trunc16 (s16 a + s16 b + carryInt c)

/-- `ACC_SUB(a, b, c)` (R109). -/
def accSub (a b : Lane) (c : Bool) : Lane := trunc16 (s16 a - s16 b - carryInt c)

/-- `WRAP_ADD(a, b)` (R111). -/
def wrapAdd (a b : Lane) : Lane := trunc16 (u16 a + u16 b)

/-- `WRAP_SUB(a, b)` (R111). -/
def wrapSub (a b : Lane) : Lane := trunc16 (u16 a - u16 b)

/-- `ABS16(s, t)`, the truth table of R170 (90_conflicts.md C7: the corner applies only to a negative `s`). -/
def abs16 (s t : Lane) : Lane :=
  if s16 s > 0 then t
  else if s16 s = 0 then 0x0000#16
  else if t = 0x8000#16 then 0x7FFF#16
  else trunc16 (-(s16 t))

end Sys2Proof.Machine
end

