-- ==== Sys2Proof/Machine/Ops.lean ====
section
/-! DEFINITION. The named operations over the register bank, the accumulator and the diagnostic log (10_state.md rules
R22 to R34), the write-back of a core transaction (40_primitives.md rule R100), and the writes of a peer family (R36).
The core takes no exception and returns from none (R210, R216, R217), so no such operation exists; the one abnormal
condition is a diagnostic, written by `writeBack`. -/

namespace Sys2Proof.Machine

/-- The vector of 8 lanes whose lane `i` is `f i`: "for i in 0..7 (parallel)" (R11). -/
def lanewise {α : Type} (f : Fin 8 → α) : Vector α 8 := Vector.ofFn f

/-- `VR[r]`: no register is hardwired (R22). -/
def readVr (s : State) (r : VReg) : Vec := s.vr[r.toNat]'r.isLt

/-- `VR[r] <- v` (R22, R24). -/
def writeVr (s : State) (r : VReg) (v : Vec) : State := { s with vr := s.vr.set r.toNat v r.isLt }

/-- `ACC[i].lo` (R25). -/
def sliceLo (a : AccLane) : Lane := a.extractLsb' 0 16
/-- `ACC[i].md` (R25). -/
def sliceMd (a : AccLane) : Lane := a.extractLsb' 16 16
/-- `ACC[i].hi` (R25). -/
def sliceHi (a : AccLane) : Lane := a.extractLsb' 32 16

/-- The accumulator lane with the three slices given, `hi : md : lo` (R9, R25). -/
def ofSlices (hi md lo : Lane) : AccLane := hi ++ md ++ lo

/-- A write of the low slice replaces bits 15:0 only and extends nothing into bits 47:16 (R26). -/
def withLo (a : AccLane) (x : Lane) : AccLane := a.extractLsb' 16 32 ++ x

/-- A write of the low slice of all 8 lanes, the one way this block writes the accumulator (R26). -/
def writeLow (acc : AccBank) (v : Vec) : AccBank := lanewise fun i => withLo acc[i] v[i]

/-- The state update of the frame of R100: accumulator, flags and log as the handler returned them, then
`VR[vd] <- D_out`. -/
def writeBack (s : State) (vd : VReg) (o : CoreOut) : State :=
  writeVr { s with acc := o.acc, co := o.co, ne := o.ne, diag := s.diag ++ o.diag.toList } vd o.dOut

/-- The slices a peer family wrote, each replaced whole or left alone (R36). -/
def peerAcc (p : PeerWrite) (acc : AccBank) : AccBank :=
  lanewise fun i =>
    ofSlices ((p.accHi.map fun v => v[i]).getD (sliceHi acc[i]))
      ((p.accMd.map fun v => v[i]).getD (sliceMd acc[i]))
      ((p.accLo.map fun v => v[i]).getD (sliceLo acc[i]))

/-- The state after an instruction of a peer family wrote what it wrote (R36). It appends no diagnostic (R34). -/
def applyPeer (p : PeerWrite) (s : State) : State :=
  let shared := { s with acc := peerAcc p s.acc, co := p.co.getD s.co, ne := p.ne.getD s.ne }
  match p.vr with
  | none => shared
  | some (r, v) => writeVr shared r v

end Sys2Proof.Machine
end

