-- ==== Sys2Proof/Machine/Operands.lean ====
section
/-! DEFINITION. Operand fetch (30_encoding.md rules R76 to R79, 40_primitives.md rule R100): the broadcast of the
target operand, VSAW's select and slice, and the inputs of a core transaction. -/

namespace Sys2Proof.Machine

/-- `idx(e, i)`: which lane of the target reaches lane `i` (R76; log entry 7). -/
def idxNat (e i : Nat) : Nat :=
  if e < 2 then i
  else if e < 4 then (i &&& 6) ||| (e &&& 1)
  else if e < 8 then (i &&& 4) ||| (e &&& 3)
  else e &&& 7

/-- `idx(e, i)` as a lane number; the value of R76's expression is below 8 for every `e` and `i`, so `Fin.ofNat`
reduces nothing. -/
def idx (e : Elem) (i : Fin 8) : Fin 8 := Fin.ofNat 8 (idxNat e.toNat i.val)

/-- The broadcast of the target operand: `T.lane[i] = VR[vt].lane[idx(e, i)]` (R76). -/
def bcast (v : Vec) (e : Elem) : Vec := lanewise fun i => v[idx e i]

/-- The 3-bit select of VSAW (R78; log entry 9). Under XOR8 an illegal element value is delivered as `sel = 7`. -/
def sawSel (d : SawDecode) (e : Elem) : Sel :=
  match d with
  | .low3 => e.extractLsb' 0 3
  | .xor8 => if (e ^^^ 0b1000#4).toNat ≤ 2 then (e ^^^ 0b1000#4).extractLsb' 0 3 else 7#3

/-- A select is legal iff it is 0, 1 or 2 (R192). -/
def selLegal (sel : Sel) : Bool := decide (sel.toNat ≤ 2)

/-- `SLICE(acc, sel)` for a legal select (R191; log entry 10); the value at 3..7 is never used (R190). -/
def slice (m : SawSliceMap) (a : AccLane) (sel : Sel) : Lane :=
  match m with
  | .doc => if sel = 0#3 then sliceLo a else if sel = 1#3 then sliceMd a else sliceHi a
  | .reversed => if sel = 0#3 then sliceHi a else if sel = 1#3 then sliceMd a else sliceLo a

/-- The inputs of a transaction whose target is broadcast: VADD, VSUB, VABS, VADDC, VSUBC (R77, R100). The source and
the destination input are never broadcast, and the select is 0. -/
def fetchBroadcast (s : State) (vd vs vt : VReg) (e : Elem) : CoreIn :=
  { dIn := readVr s vd, sIn := readVr s vs, tIn := bcast (readVr s vt) e, sel := 0#3,
    acc := s.acc, co := s.co, ne := s.ne }

/-- The inputs of a VSAW transaction: no broadcast, the select taken from `e` (R77, R78, R100). -/
def fetchSaw (s : State) (vd vs vt : VReg) (e : Elem) : CoreIn :=
  { dIn := readVr s vd, sIn := readVr s vs, tIn := readVr s vt, sel := sawSel s.params.sawDecode e,
    acc := s.acc, co := s.co, ne := s.ne }

end Sys2Proof.Machine
end

