-- ==== Sys2Proof/Machine/Abs.lean ====
section
/-! DEFINITION. The absolute-value instruction VABS (43_abs.md rules R170, R171). -/

namespace Sys2Proof.Machine

/-- The handler of VABS, `do_abs` (R171): destination and accumulator both receive the corner-corrected value, and the
flags are neither read nor written (90_conflicts.md C8; log entries 13 and 25). -/
def vabsHandler (x : CoreIn) : CoreOut :=
  let r : Vec := lanewise fun i => abs16 x.sIn[i] x.tIn[i]
  { dOut := r
    acc  := writeLow x.acc r
    co   := x.co
    ne   := x.ne
    diag := none }

/-- VABS in the frame of R100. -/
def execVabs (vd vs vt : VReg) (e : Elem) (s : State) : Host.Outcome State Fault Refusal :=
  .next (writeBack s vd (vabsHandler (fetchBroadcast s vd vs vt e)))

end Sys2Proof.Machine
end

