-- ==== Sys2Proof/Machine/AccumulatorRead.lean ====
section
/-! DEFINITION. The accumulator read VSAW (44_accumulator_read.md rules R190 to R194). -/

namespace Sys2Proof.Machine

/-- What VSAW returns on an illegal select (R193; log entry 11). -/
def illegalSawResult (p : SawIllegal) (dIn : Vec) : Vec :=
  match p with
  | .unchanged => dIn
  | .zero => Vector.replicate 8 0x0000#16

/-- The handler of VSAW (R190): one slice of every accumulator lane on a legal select; the fallback and one diagnostic
record on an illegal one (R193, R194). The accumulator and the flags are left as they are, and the source and target
operands are not read. -/
def vsawHandler (p : Params) (x : CoreIn) : CoreOut :=
  if selLegal x.sel then
    { dOut := lanewise fun i => slice p.sawSliceMap x.acc[i] x.sel
      acc := x.acc, co := x.co, ne := x.ne, diag := none }
  else
    { dOut := illegalSawResult p.sawIllegal x.dIn
      acc := x.acc, co := x.co, ne := x.ne, diag := some { kind := .illegalSawElement, sel := x.sel } }

/-- VSAW in the frame of R100. -/
def execVsaw (vd vs vt : VReg) (e : Elem) (s : State) : Host.Outcome State Fault Refusal :=
  .next (writeBack s vd (vsawHandler s.params (fetchSaw s vd vs vt e)))

end Sys2Proof.Machine
end

