-- ==== Sys2Proof/Machine/Flags.lean ====
section
/-! DEFINITION. Every flag computation of the spec (40_primitives.md rule R111, 10_state.md rules R28 to R31). -/

namespace Sys2Proof.Machine

/-- `CARRY16(a, b)`: 1 iff the unsigned sum exceeds 65535 (R111). -/
def carry16 (a b : Lane) : Bool := decide (u16 a + u16 b > 65535)

/-- `BORROW16(a, b)`: 1 iff the unsigned difference is negative (R111). -/
def borrow16 (a b : Lane) : Bool := decide (u16 a < u16 b)

/-- `NOTEQ16(a, b)`: 1 iff the patterns differ (R111). -/
def notEq16 (a b : Lane) : Bool := decide (a ≠ b)

/-- All 8 lanes of a flag vector at 0, whatever they held (R31, R130). -/
def clearedFlags : FlagVec := Vector.replicate 8 false

end Sys2Proof.Machine
end

