-- ==== Sys2Proof/Machine/CarryClearing.lean ====
section
/-! DEFINITION. The carry-clearing instructions VADD and VSUB (41_carry_clearing.md rules R130 to R132). -/

namespace Sys2Proof.Machine

/-- The handler of VADD, `clr_ci` (R131). -/
def vaddHandler (x : CoreIn) : CoreOut :=
  { dOut := lanewise fun i => signedClampAdd x.sIn[i] x.tIn[i] x.co[i]
    acc  := writeLow x.acc (lanewise fun i => accAdd x.sIn[i] x.tIn[i] x.co[i])
    co   := clearedFlags
    ne   := clearedFlags
    diag := none }

/-- The handler of VSUB, `clr_bi` (R132), under `P_SUB_POLICY`. -/
def vsubHandler (p : SubPolicy) (x : CoreIn) : CoreOut :=
  { dOut := lanewise fun i => signedClampSub p x.sIn[i] x.tIn[i] x.co[i]
    acc  := writeLow x.acc (lanewise fun i => accSub x.sIn[i] x.tIn[i] x.co[i])
    co   := clearedFlags
    ne   := clearedFlags
    diag := none }

/-- VADD in the frame of R100. -/
def execVadd (vd vs vt : VReg) (e : Elem) (s : State) : Host.Outcome State Fault Refusal :=
  .next (writeBack s vd (vaddHandler (fetchBroadcast s vd vs vt e)))

/-- VSUB in the frame of R100. -/
def execVsub (vd vs vt : VReg) (e : Elem) (s : State) : Host.Outcome State Fault Refusal :=
  .next (writeBack s vd (vsubHandler s.params.subPolicy (fetchBroadcast s vd vs vt e)))

end Sys2Proof.Machine
end

