-- ==== Sys2Proof/Machine/CarrySetting.lean ====
section
/-! DEFINITION. The carry-setting instructions VADDC and VSUBC (42_carry_setting.md rules R150 to R152). -/

namespace Sys2Proof.Machine

/-- The handler of VADDC, `set_co` (R151). -/
def vaddcHandler (x : CoreIn) : CoreOut :=
  let r : Vec := lanewise fun i => wrapAdd x.sIn[i] x.tIn[i]
  { dOut := r
    acc  := writeLow x.acc r
    co   := lanewise fun i => carry16 x.sIn[i] x.tIn[i]
    ne   := clearedFlags
    diag := none }

/-- The handler of VSUBC, `set_bo` (R152). -/
def vsubcHandler (x : CoreIn) : CoreOut :=
  let r : Vec := lanewise fun i => wrapSub x.sIn[i] x.tIn[i]
  { dOut := r
    acc  := writeLow x.acc r
    co   := lanewise fun i => borrow16 x.sIn[i] x.tIn[i]
    ne   := lanewise fun i => notEq16 x.sIn[i] x.tIn[i]
    diag := none }

/-- VADDC in the frame of R100. -/
def execVaddc (vd vs vt : VReg) (e : Elem) (s : State) : Host.Outcome State Fault Refusal :=
  .next (writeBack s vd (vaddcHandler (fetchBroadcast s vd vs vt e)))

/-- VSUBC in the frame of R100. -/
def execVsubc (vd vs vt : VReg) (e : Elem) (s : State) : Host.Outcome State Fault Refusal :=
  .next (writeBack s vd (vsubcHandler (fetchBroadcast s vd vs vt e)))

end Sys2Proof.Machine
end

