-- ==== Sys2Proof/Machine/Dispatch.lean ====
section
/-! DEFINITION. One arm per instruction of the opcode table. -/

namespace Sys2Proof.Machine

def exec (i : Instr) (s : State) : Host.Outcome State Fault Refusal :=
  match i with
  | .vadd vd vs vt e => Sys2Proof.Machine.execVadd vd vs vt e s
  | .vsub vd vs vt e => Sys2Proof.Machine.execVsub vd vs vt e s
  | .vabs vd vs vt e => Sys2Proof.Machine.execVabs vd vs vt e s
  | .vaddc vd vs vt e => Sys2Proof.Machine.execVaddc vd vs vt e s
  | .vsubc vd vs vt e => Sys2Proof.Machine.execVsubc vd vs vt e s
  | .vsaw vd vs vt e => Sys2Proof.Machine.execVsaw vd vs vt e s

end Sys2Proof.Machine
end

