-- ==== Sys2Proof/Machine/Invoke.lean ====
section
/-! DEFINITION. What the external decoder's events do: taking the next one, running a word (40_primitives.md rule R100,
30_encoding.md rules R80, R82), and applying any event (10_state.md rule R36). The core itself fetches nothing and has
no program counter (10_state.md rule R27, 20_memory.md rule R60; log entry 2). -/

namespace Sys2Proof.Machine

/-- The next event and the state without it, if one is waiting. -/
def takeEvent (s : State) : Option (Event × State) :=
  match s.feed with
  | [] => none
  | ev :: rest => some (ev, { s with feed := rest })

/-- The refusal a rejected word ends in, by the names of R82. -/
def rejectWord (w : Word) : DecodeReject → Refusal
  | .notCoreInstruction => .notCoreInstruction w
  | .notCoreFunct => .notCoreFunct w

/-- The instruction-word step of R100: decode, or refuse by name; then run. -/
def invokeWord (w : Word) (s : State) : Host.Outcome State Fault Refusal :=
  match decode w with
  | .ok i => exec i s
  | .error r => .refused (rejectWord w r)

/-- What one event does to the core. -/
def applyEvent (ev : Event) (s : State) : Host.Outcome State Fault Refusal :=
  match ev with
  | .word w => invokeWord w s
  | .peer p => .next (applyPeer p s)

/-- What a step does while the decoder brings nothing: the state persists (R24, R33; log entry 3). -/
def idle (s : State) : Host.Outcome State Fault Refusal := .next s

/-- The event that hands the core a word given in the opcode table's numbering. -/
def tableWordEvent (nbits w : Nat) : Event := .word (tableWord nbits w)

/-- A state with one more event at the head of what the decoder brings. -/
def pushEvent (s : State) (ev : Event) : State := { s with feed := ev :: s.feed }

end Sys2Proof.Machine
end

