-- ==== Sys2Proof/Machine/Step.lean ====
section
/-! DEFINITION. One step of the core: the next event of the external decoder, run whole (20_memory.md rule R57). -/

namespace Sys2Proof.Machine

/-- One step: the next event, or nothing where none is waiting. -/
def step (s : State) : Host.Outcome State Fault Refusal :=
  match takeEvent s with
  | none => idle s
  | some (ev, s') => applyEvent ev s'

/-- `s` with one instruction word brought next by the external decoder (log entry 2). -/
def State.withFetchWord (s : State) (nbits w : Nat) : State := pushEvent s (tableWordEvent nbits w)

end Sys2Proof.Machine
end

