-- ==== Sys2Proof/Machine/Instances.lean ====
section
/-! DEFINITION. Several core instances (60_exceptions.md rule R222): each owns a copy of the whole state and shares
none. Which instance moves is the caller's choice (log entry 23). -/

namespace Sys2Proof.Machine

/-- The system after one step of instance `k`; a number that names no instance moves nothing (log entry 23). DESIGN
CHOICE: a word refused at instance `k` refuses the step of the whole system, with no next state for the others, which
the spec leaves open (log entry 27). -/
def stepInstance (k : Nat) (cores : List State) : Host.Outcome (List State) Fault Refusal :=
  match cores[k]? with
  | none => .next cores
  | some s =>
    match step s with
    | .next t => .next (cores.set k t)
    | .fault f => .fault f
    | .refused r => .refused r

end Sys2Proof.Machine
end

