-- ==== Sys2Proof/Machine/Transaction.lean ====
section
/-! DEFINITION. The first of the two levels of 00_scope.md rule R6: the core transaction, one total handler over the
opcode identity (40_primitives.md rule R101). The meanings of the instruction-word level call the same handlers, and an
obligation says that they agree. -/

namespace Sys2Proof.Machine

/-- `handler(op, D_in, S, T, sel, ACC, co, ne)`: total and deterministic, with no error path (R101). -/
def handler (p : Params) (op : Op) (x : CoreIn) : CoreOut :=
  match op with
  | .vadd  => vaddHandler x
  | .vsub  => vsubHandler p.subPolicy x
  | .vabs  => vabsHandler x
  | .vaddc => vaddcHandler x
  | .vsubc => vsubcHandler x
  | .vsaw  => vsawHandler p x

/-- The operand fetch of R100: the target is broadcast for every opcode but VSAW, whose select comes from `e`. -/
def fetchOperands (s : State) (i : Instr) : CoreIn :=
  match i.op with
  | .vsaw => fetchSaw s i.vd i.vs i.vt i.e
  | .vadd | .vsub | .vabs | .vaddc | .vsubc => fetchBroadcast s i.vd i.vs i.vt i.e

end Sys2Proof.Machine
end

