-- ==== Sys2Proof/Machine/Views.lean ====
section
/-! DEFINITION. The other views of a vector register: the 128-bit word with lane 0 in its most significant halfword
(10_state.md rule R23) and the big-endian byte and 64-bit views (20_memory.md rule R51). No instruction of the block
uses one (R51); the placement is the spec's decision D11 (log entry 14). -/

namespace Sys2Proof.Machine

/-- The 128-bit word of a register: lane `i` at bits `[127-16*i : 112-16*i]` (R23). -/
def vecBits (v : Vec) : BitVec 128 :=
  v[0] ++ v[1] ++ v[2] ++ v[3] ++ v[4] ++ v[5] ++ v[6] ++ v[7]

/-- Lane `i` of a 128-bit word (R23). -/
def bitsLane (b : BitVec 128) (i : Fin 8) : Lane := b.extractLsb' (112 - 16 * i.val) 16

/-- The lanes of a 128-bit word (R23). -/
def ofBits (b : BitVec 128) : Vec := lanewise (bitsLane b)

/-- Byte `k` of a register: bits `[127-8*k : 120-8*k]` (R51). -/
def vecByte (v : Vec) (k : Fin 16) : BitVec 8 := (vecBits v).extractLsb' (120 - 8 * k.val) 8

/-- The two 64-bit words of a register: index 0 is bits 127:64 (lanes 0 to 3), index 1 bits 63:0 (lanes 4 to 7)
(R51). -/
def vecDword (v : Vec) (k : Fin 2) : BitVec 64 := (vecBits v).extractLsb' (64 - 64 * k.val) 64

end Sys2Proof.Machine
end

