-- ==== Sys2Proof/Safety.lean ====
section
/-! DEFINITION. What claims about runs are stated in: which events the core gives a meaning to, what a safe run is, the
launch premise CleanEntry (70_reset_and_hazards.md rule R241), and the invariant of the diagnostic log. -/

namespace Sys2Proof.Machine

/-- The core gives the event a meaning: a word it decodes, or a peer family's write (R80, R36). -/
def coreEvent : Event → Bool
  | .word w =>
    match decode w with
    | .ok _ => true
    | .error _ => false
  | .peer _ => true

/-- `n` steps, stopping at the first fault or refusal: the run of `Sys2Proof.core`, over this model's own types. -/
def runFor : Nat → State → Host.Outcome State Fault Refusal
  | 0, s => .next s
  | n + 1, s =>
    match step s with
    | .next t => runFor n t
    | .fault r => .fault r
    | .refused r => .refused r

/-- The meanings of a list of instructions, one after the other, stopping at the first fault or refusal. -/
def execAll : List Instr → State → Host.Outcome State Fault Refusal
  | [], s => .next s
  | i :: is, s =>
    match exec i s with
    | .next t => execAll is t
    | .fault r => .fault r
    | .refused r => .refused r

/-- `n` steps from `s` never stop: no fault, no refusal. -/
def SafeFor (n : Nat) (s : State) : Prop := ∃ t, runFor n s = .next t

/-- The run from `s` never stops. -/
def Safe (s : State) : Prop := ∀ n, SafeFor n s

/-- The launch premise of R241: accumulator and flags zero, `DIAG` empty; it says nothing of `VR`. -/
abbrev CleanEntry (s : State) : Prop :=
  s.acc = Vector.replicate 8 0x000000000000#48 ∧ s.co = clearedFlags ∧ s.ne = clearedFlags ∧ s.diag = []

/-- A diagnostic record the core can have written under these parameters: its select is illegal (R192, R212), and under
XOR8 it is 7 (R78). -/
def diagOk (p : Params) (d : Diag) : Bool :=
  !selLegal d.sel &&
    (match p.sawDecode with
     | .low3 => true
     | .xor8 => decide (d.sel = 7#3))

/-- Every record of the log is one the core can have written. -/
abbrev DiagInv (s : State) : Prop := ∀ d ∈ s.diag, diagOk s.params d = true

end Sys2Proof.Machine
end

