-- ==== Sys2Proof/Certificates/Slice0/Obligations.lean ====
section
/-! DEFINITION. The statements for the provers, by the spec's files in order. A docstring says which rule a statement
formalises, and where a clause rests on a decision of the spec or of the model. -/

open Sys2Proof Sys2Proof.Machine

/-! ### Initial state -/

/-- R37, R240. Any assignment of the registers, accumulator and flags is the initial state for some `P_INIT`, under any
parameters, with `DIAG` empty. (`State.reset` is one of these states, the model's choice of log entry 5; nothing is
claimed of its values.) -/
def Obligations.InitialStateIsAnyPInitWithEmptyLog : Prop :=
  ∀ (p : Params) (vr : Vector Vec 32) (acc : AccBank) (co ne : FlagVec),
    ∃ init : Init, ∃ s : State, s = State.initial p init ∧
      s.vr = vr ∧ s.acc = acc ∧ s.co = co ∧ s.ne = ne ∧ s.diag = [] ∧ s.params = p

/-- The invariant of the diagnostic log holds at reset. -/
def Obligations.ResetMeetsDiagnosticInvariant : Prop := DiagInv State.reset

/-! ### Instruction words -/

/-- Spec 95_test_vectors.md section 2.1: words written out from the encoding table decode to the instructions they stand
for, and words of other families are refused by name. -/
def Obligations.WrittenOutWordsDecode : Prop :=
  decode 0b01001010000000100000100011010000#32 = .ok (.vadd 3 1 2 0) ∧
  decode 0b01001011000000100000100011010000#32 = .ok (.vadd 3 1 2 8) ∧
  decode 0b01001010000000100000100011010001#32 = .ok (.vsub 3 1 2 0) ∧
  decode 0b01001010000000100000100011010011#32 = .ok (.vabs 3 1 2 0) ∧
  decode 0b01001010000000100000100011010100#32 = .ok (.vaddc 3 1 2 0) ∧
  decode 0b01001010000000100000100011010101#32 = .ok (.vsubc 3 1 2 0) ∧
  decode 0b01001010000000000000000111011101#32 = .ok (.vsaw 7 0 0 0) ∧
  decode 0b01001011111111111111111111010101#32 = .ok (.vsubc 31 31 31 15) ∧
  decode 0x4A000012#32 = .error .notCoreFunct ∧
  decode 0x4A00003F#32 = .error .notCoreFunct ∧
  decode 0x48000010#32 = .error .notCoreInstruction ∧
  decode 0x00000000#32 = .error .notCoreInstruction ∧
  decode 0xFFFFFFFF#32 = .error .notCoreInstruction

/-- Decoding an encoded instruction gives it back, for every instruction and every value of every field. The layout is
the spec's decision (D1, D2, D23; log entry 6). -/
def Obligations.DecodeOfEncodeIsTheInstruction : Prop :=
  ∀ i : Instr, decode (encode i) = .ok i

/-- A word that decodes is the encoding of what it decodes to: no bit of a word is dropped, and no two words are one
instruction. -/
def Obligations.EncodeOfDecodeIsTheWord : Prop :=
  ∀ (w : Word) (i : Instr), decode w = .ok i → encode i = w

/-- The mask and match rule of 30_encoding.md section 2, its match values, and its formula for the full word. The layout
is the spec's decision (D1, D2; log entry 6). -/
def Obligations.WordIsInstructionIffMaskedWordMatches : Prop :=
  (∀ (w : Word) (o : Op),
    (∃ i, decode w = .ok i ∧ i.op = o) ↔
      w &&& 0xFE00003F#32 = 0x4A000000#32 ||| BitVec.setWidth 32 (Op.funct o)) ∧
  (∀ o : Op, Op.matchValue o = 0x4A000000#32 ||| BitVec.setWidth 32 (Op.funct o)) ∧
  (∀ i : Instr, encode i =
    0x4A000000#32 ||| BitVec.setWidth 32 i.e <<< 21 ||| BitVec.setWidth 32 i.vt <<< 16 |||
      BitVec.setWidth 32 i.vs <<< 11 ||| BitVec.setWidth 32 i.vd <<< 6 ||| BitVec.setWidth 32 i.op.funct)

/-- The decoding pseudocode of 30_encoding.md section 5, clause by clause: the two refusals by name, and the fields of a
word that decodes. Derived in the spec from its layout decision (log entry 6). -/
def Obligations.DecodingFollowsItsPseudocode : Prop :=
  ∀ w : Word,
    (decode w = .error .notCoreInstruction ↔ w.extractLsb' 26 6 ≠ 0b010010#6 ∨ w.extractLsb' 25 1 ≠ 1#1) ∧
    (decode w = .error .notCoreFunct ↔
      (w.extractLsb' 26 6 = 0b010010#6 ∧ w.extractLsb' 25 1 = 1#1) ∧
        w.extractLsb' 0 6 ∉ [0x10#6, 0x11#6, 0x13#6, 0x14#6, 0x15#6, 0x1D#6]) ∧
    (∀ i, decode w = .ok i →
      i.op.funct = w.extractLsb' 0 6 ∧ i.e = w.extractLsb' 21 4 ∧ i.vt = w.extractLsb' 16 5 ∧
        i.vs = w.extractLsb' 11 5 ∧ i.vd = w.extractLsb' 6 5)

/-- The assembler syntax of 30_encoding.md section 6 (the spec's decision D18; log entry 21): the line of an instruction
is well formed and assembles to it, a line that leaves the element out assembles as with 0, an ill-formed line
assembles to nothing, and the spec's example. -/
def Obligations.AssemblerLineRoundTrip : Prop :=
  (∀ i : Instr, i.toAsm.wellFormed = true ∧ i.toAsm.assemble = some i) ∧
  (∀ l : AsmLine, l.e = none → l.assemble = AsmLine.assemble { l with e := some 0 }) ∧
  (∀ l : AsmLine, (32 ≤ l.vd ∨ 32 ≤ l.vs ∨ 32 ≤ l.vt ∨ ∃ e, l.e = some e ∧ 16 ≤ e) → l.assemble = none) ∧
  ((AsmLine.assemble { op := .vadd, vd := 3, vs := 1, vt := 2, e := some 8 }).map encode = some 0x4B0208D0#32)

/-! ### Operand fetch -/

/-- The broadcast table of 30_encoding.md section 3, all 16 rows. The table is the spec's decision (D3; log entry 7). -/
def Obligations.BroadcastFollowsTheSixteenRowTable : Prop :=
  ∀ v : Vec,
    bcast v 0 = v ∧ bcast v 1 = v ∧
    bcast v 2 = #v[v[0], v[0], v[2], v[2], v[4], v[4], v[6], v[6]] ∧
    bcast v 3 = #v[v[1], v[1], v[3], v[3], v[5], v[5], v[7], v[7]] ∧
    bcast v 4 = #v[v[0], v[0], v[0], v[0], v[4], v[4], v[4], v[4]] ∧
    bcast v 5 = #v[v[1], v[1], v[1], v[1], v[5], v[5], v[5], v[5]] ∧
    bcast v 6 = #v[v[2], v[2], v[2], v[2], v[6], v[6], v[6], v[6]] ∧
    bcast v 7 = #v[v[3], v[3], v[3], v[3], v[7], v[7], v[7], v[7]] ∧
    ∀ k : Fin 8, bcast v (BitVec.ofNat 4 (8 + k.val)) = Vector.replicate 8 v[k]

/-- VSAW's select out of the element field under both values of `P_SAW_DECODE` (30_encoding.md section 3; the spec's
decision D4, log entry 9). -/
def Obligations.SawSelectOfElementField : Prop :=
  ∀ e : Elem,
    (sawSel .low3 e).toNat = e.toNat % 8 ∧
    ((e = 8 ∨ e = 9 ∨ e = 10) → (sawSel .xor8 e).toNat = e.toNat - 8) ∧
    (¬ (e = 8 ∨ e = 9 ∨ e = 10) → sawSel .xor8 e = 7)

/-! ### Lane functions -/

/-- R104. The lane result of the saturating add is the exact sum pinned to the nearest bound, and the sum lies in
[-65536, 65535]. -/
def Obligations.SaturatingAddIsTheClampedExactSum : Prop :=
  ∀ (a b : Lane) (c : Bool),
    let n : Int := a.toInt + b.toInt + (if c then 1 else 0)
    (signedClampAdd a b c).toInt = max (-32768) (min 32767 n) ∧ -65536 ≤ n ∧ n ≤ 65535 ∧
      (32767 < n → signedClampAdd a b c = 0x7FFF) ∧ (n < -32768 → signedClampAdd a b c = 0x8000)

/-- The source's procedure for the saturating add (40_primitives.md section 2, derived there): min plus carry, then
max, clamped at the end, gives the rule's result if the first addition saturates or is exact; with a wrapping first
addition it differs exactly at a = b = 32767 with carry 1. -/
def Obligations.AddProcedureAgreesUnlessFirstStepWraps : Prop :=
  ∀ (a b : Lane) (c : Bool),
    let lo : Int := min a.toInt b.toInt + (if c then 1 else 0)
    let hi : Int := max a.toInt b.toInt
    clamp16 (s16 (clamp16 lo) + hi) = signedClampAdd a b c ∧
    clamp16 (lo + hi) = signedClampAdd a b c ∧
    (clamp16 (s16 (trunc16 lo) + hi) = signedClampAdd a b c ↔ ¬ (a = 0x7FFF ∧ b = 0x7FFF ∧ c = true))

/-- The saturating subtract under EXACT is the exact difference pinned to the nearest bound (40_primitives.md section 3;
the spec's decision D7, log entry 8). -/
def Obligations.SaturatingSubtractIsTheClampedExactDifference : Prop :=
  ∀ (a b : Lane) (c : Bool),
    let n : Int := a.toInt - b.toInt - (if c then 1 else 0)
    (signedClampSub .exact a b c).toInt = max (-32768) (min 32767 n) ∧ -65536 ≤ n ∧ n ≤ 65535

/-- The two subtract policies differ exactly when the borrow is 1 and `a - b` is at least 32769; there EXACT gives
0x7FFF and EDGE_ONLY 0x7FFE (40_primitives.md section 3; the spec's decision D7, log entry 8). -/
def Obligations.SubtractPoliciesDifferExactlyOnLargeDifferencesWithBorrow : Prop :=
  ∀ (a b : Lane) (c : Bool),
    (signedClampSub .exact a b c ≠ signedClampSub .edgeOnly a b c ↔ c = true ∧ 32769 ≤ a.toInt - b.toInt) ∧
    (c = true → 32769 ≤ a.toInt - b.toInt →
      signedClampSub .exact a b c = 0x7FFF ∧ signedClampSub .edgeOnly a b c = 0x7FFE)

/-- The source's subtract procedure with the borrow suppressed on upward overflow is the exact policy on every input,
and without the suppression it is wrong exactly for borrow 1 and `a - b` at least 32768, giving 0x7FFE there
(40_primitives.md section 3, derived there). -/
def Obligations.SuppressedBorrowProcedureIsTheExactPolicy : Prop :=
  ∀ (a b : Lane) (c : Bool),
    let d : Int := a.toInt - b.toInt
    let r : Lane := clamp16 d
    let naive : Lane := clamp16 (s16 r - (if c then 1 else 0))
    (if c = true ∧ 32767 < d then r else naive) = signedClampSub .exact a b c ∧
    (naive ≠ signedClampSub .exact a b c ↔ c = true ∧ 32768 ≤ d) ∧
    (c = true → 32768 ≤ d → naive = 0x7FFE)

/-- R109. The accumulator values are the exact results modulo 2^16. -/
def Obligations.AccumulatorValuesAreExactModuloTwoToSixteen : Prop :=
  ∀ (a b : Lane) (c : Bool),
    accAdd a b c = a + b + BitVec.setWidth 16 (BitVec.ofBool c) ∧
    accSub a b c = a - b - BitVec.setWidth 16 (BitVec.ofBool c)

/-- R111. Carry, borrow and inequality over unsigned lanes, and the wrapped results, which are the same patterns for the
signed readings. Carry is bit 16 of the 17-bit sum. -/
def Obligations.CarryBorrowAndInequalityOfUnsignedLanes : Prop :=
  ∀ a b : Lane,
    (carry16 a b = true ↔ 65535 < a.toNat + b.toNat) ∧
    carry16 a b = (BitVec.setWidth 17 a + BitVec.setWidth 17 b).getLsbD 16 ∧
    (borrow16 a b = true ↔ a.toNat < b.toNat) ∧
    (notEq16 a b = true ↔ a ≠ b) ∧
    wrapAdd a b = a + b ∧ wrapSub a b = a - b ∧
    wrapAdd a b = trunc16 (a.toInt + b.toInt) ∧ wrapSub a b = trunc16 (a.toInt - b.toInt)

/-- The four rows of the absolute-value table (43_abs.md, R170), and its form as a clamped product of sign and value,
which the spec marks as derived from the table. -/
def Obligations.AbsoluteValueTruthTable : Prop :=
  ∀ s t : Lane,
    (0 < s.toInt → abs16 s t = t) ∧
    (s.toInt = 0 → abs16 s t = 0x0000) ∧
    (s.toInt < 0 → t ≠ 0x8000 → abs16 s t = trunc16 (-t.toInt)) ∧
    (s.toInt < 0 → t = 0x8000 → abs16 s t = 0x7FFF) ∧
    abs16 s t = clamp16 (s.toInt.sign * t.toInt)

/-! ### Core transactions -/

/-- R130. The carry-clearing contract, at the level of the core transaction: the wrapped exact sum or difference with
the carry-in to the low slice, the matching clamp primitive to the destination, both flag vectors zeroed in all lanes,
and no error path: the instruction completes in every state. -/
def Obligations.CarryClearingHandlersFollowTheirContract : Prop :=
  (∀ (p : Params) (op : Op) (x : CoreIn), (op = .vadd ∨ op = .vsub) →
    (∀ k : Fin 8, ∀ c : Int, c = (if x.co[k] = true then 1 else 0) →
      (op = .vadd →
        sliceLo (handler p op x).acc[k] = BitVec.ofInt 16 (x.sIn[k].toInt + x.tIn[k].toInt + c) ∧
        (handler p op x).dOut[k] = signedClampAdd x.sIn[k] x.tIn[k] x.co[k]) ∧
      (op = .vsub →
        sliceLo (handler p op x).acc[k] = BitVec.ofInt 16 (x.sIn[k].toInt - x.tIn[k].toInt - c) ∧
        (handler p op x).dOut[k] = signedClampSub p.subPolicy x.sIn[k] x.tIn[k] x.co[k]) ∧
      (handler p op x).co[k] = false ∧ (handler p op x).ne[k] = false)) ∧
  (∀ (i : Instr) (s : State), (i.op = .vadd ∨ i.op = .vsub) → ∃ t, exec i s = .next t)

/-- R150. The carry-setting contract, at the level of the core transaction: overflow is detected on the unsigned
readings, the signed wraparound result goes unclamped to the low slice and the destination alike, and what the flags
held matters to nothing. -/
def Obligations.CarrySettingHandlersFollowTheirContract : Prop :=
  ∀ (p : Params) (op : Op) (x : CoreIn), (op = .vaddc ∨ op = .vsubc) →
    (∀ k : Fin 8,
      (op = .vaddc →
        (handler p op x).dOut[k] = BitVec.ofInt 16 (x.sIn[k].toInt + x.tIn[k].toInt) ∧
        ((handler p op x).co[k] = true ↔ 65535 < x.sIn[k].toNat + x.tIn[k].toNat)) ∧
      (op = .vsubc →
        (handler p op x).dOut[k] = BitVec.ofInt 16 (x.sIn[k].toInt - x.tIn[k].toInt) ∧
        ((handler p op x).co[k] = true ↔ x.sIn[k].toNat < x.tIn[k].toNat)) ∧
      sliceLo (handler p op x).acc[k] = (handler p op x).dOut[k]) ∧
    (∀ co ne : FlagVec, handler p op { x with co := co, ne := ne } = handler p op x)

/-! ### Instructions: what each does, and that it completes -/

/-- R100. One instruction word is one step and one core transaction: the word is refused or decoded, the operands are
fetched as the frame says (VSAW's target alone is not broadcast, and its select alone comes from `e`), and exactly the
handler's outputs are written back. That the word stands at the head of a feed is the model's own (log entry 2). -/
def Obligations.InstructionWordIsOneCoreTransaction : Prop :=
  ∀ (s : State) (w : Word) (rest : List Event), s.feed = .word w :: rest →
    (∀ r, decode w = .error r → ∃ q, step s = .refused q) ∧
    (∀ i, decode w = .ok i → ∀ x : CoreIn,
      x.sIn = readVr s i.vs → x.dIn = readVr s i.vd →
      x.tIn = (if i.op = .vsaw then readVr s i.vt else bcast (readVr s i.vt) i.e) →
      x.sel = (if i.op = .vsaw then sawSel s.params.sawDecode i.e else 0) →
      x.acc = s.acc → x.co = s.co → x.ne = s.ne →
      ∃ t, step s = .next t ∧
        t.acc = (handler s.params i.op x).acc ∧ t.co = (handler s.params i.op x).co ∧
        t.ne = (handler s.params i.op x).ne ∧ t.diag = s.diag ++ (handler s.params i.op x).diag.toList ∧
        readVr t i.vd = (handler s.params i.op x).dOut ∧ (∀ r, r ≠ i.vd → readVr t r = readVr s r) ∧
        t.params = s.params ∧ t.feed = rest)

/-- R131. VADD completes in every state, for all operands, aliased or not: clamped sum with carry to the destination,
wrapped sum to the low slice, both flag vectors cleared, everything else unchanged. The match value rests on the spec's
decision D1, D2 (log entry 6), the broadcast on D3 (log entry 7). -/
def Obligations.VaddAddsWithCarryInAndClearsFlags : Prop :=
  ∀ (vd vs vt : VReg) (e : Elem) (s : State),
    encode (.vadd vd vs vt e) &&& 0xFE00003F#32 = 0x4A000010#32 ∧
    ∃ t, exec (.vadd vd vs vt e) s = .next t ∧
      (∀ i : Fin 8, ∀ a b : Lane, ∀ c : Bool,
        a = (readVr s vs)[i] → b = (bcast (readVr s vt) e)[i] → c = s.co[i] →
        (readVr t vd)[i] = signedClampAdd a b c ∧
        sliceLo t.acc[i] = accAdd a b c ∧ sliceMd t.acc[i] = sliceMd s.acc[i] ∧ sliceHi t.acc[i] = sliceHi s.acc[i] ∧
        t.co[i] = false ∧ t.ne[i] = false) ∧
      (∀ r, r ≠ vd → readVr t r = readVr s r) ∧ t.diag = s.diag ∧ t.params = s.params ∧ t.feed = s.feed

/-- R132. VSUB completes in every state, for all operands and both policies: clamped difference with borrow to the
destination, wrapped difference to the low slice, both flag vectors cleared, everything else unchanged. The match
value rests on the spec's decision D1, D2 (log entry 6), the broadcast on D3 (log entry 7), the policy on D7 (log
entry 8). -/
def Obligations.VsubSubtractsWithBorrowInAndClearsFlags : Prop :=
  ∀ (vd vs vt : VReg) (e : Elem) (s : State),
    encode (.vsub vd vs vt e) &&& 0xFE00003F#32 = 0x4A000011#32 ∧
    ∃ t, exec (.vsub vd vs vt e) s = .next t ∧
      (∀ i : Fin 8, ∀ a b : Lane, ∀ c : Bool,
        a = (readVr s vs)[i] → b = (bcast (readVr s vt) e)[i] → c = s.co[i] →
        (readVr t vd)[i] = signedClampSub s.params.subPolicy a b c ∧
        sliceLo t.acc[i] = accSub a b c ∧ sliceMd t.acc[i] = sliceMd s.acc[i] ∧ sliceHi t.acc[i] = sliceHi s.acc[i] ∧
        t.co[i] = false ∧ t.ne[i] = false) ∧
      (∀ r, r ≠ vd → readVr t r = readVr s r) ∧ t.diag = s.diag ∧ t.params = s.params ∧ t.feed = s.feed

/-- R151. VADDC completes in every state: wrapped sum to the destination and the low slice, unsigned carry to `co`,
`ne` cleared, everything else unchanged. The match value rests on D1, D2 (log entry 6), the broadcast on D3 (log entry
7), the untouched upper slices on D8 (log entry 12). -/
def Obligations.VaddcWrapsAndSetsCarry : Prop :=
  ∀ (vd vs vt : VReg) (e : Elem) (s : State),
    encode (.vaddc vd vs vt e) &&& 0xFE00003F#32 = 0x4A000014#32 ∧
    ∃ t, exec (.vaddc vd vs vt e) s = .next t ∧
      (∀ i : Fin 8, ∀ a b : Lane,
        a = (readVr s vs)[i] → b = (bcast (readVr s vt) e)[i] →
        (readVr t vd)[i] = wrapAdd a b ∧
        sliceLo t.acc[i] = wrapAdd a b ∧ sliceMd t.acc[i] = sliceMd s.acc[i] ∧ sliceHi t.acc[i] = sliceHi s.acc[i] ∧
        t.co[i] = carry16 a b ∧ t.ne[i] = false) ∧
      (∀ r, r ≠ vd → readVr t r = readVr s r) ∧ t.diag = s.diag ∧ t.params = s.params ∧ t.feed = s.feed

/-- R152. VSUBC completes in every state: wrapped difference to the destination and the low slice, unsigned borrow to
`co`, inequality to `ne`, everything else unchanged. The match value rests on D1, D2 (log entry 6), the broadcast on D3
(log entry 7), the untouched upper slices on D8 (log entry 12). -/
def Obligations.VsubcWrapsAndSetsBorrowAndInequality : Prop :=
  ∀ (vd vs vt : VReg) (e : Elem) (s : State),
    encode (.vsubc vd vs vt e) &&& 0xFE00003F#32 = 0x4A000015#32 ∧
    ∃ t, exec (.vsubc vd vs vt e) s = .next t ∧
      (∀ i : Fin 8, ∀ a b : Lane,
        a = (readVr s vs)[i] → b = (bcast (readVr s vt) e)[i] →
        (readVr t vd)[i] = wrapSub a b ∧
        sliceLo t.acc[i] = wrapSub a b ∧ sliceMd t.acc[i] = sliceMd s.acc[i] ∧ sliceHi t.acc[i] = sliceHi s.acc[i] ∧
        t.co[i] = borrow16 a b ∧ t.ne[i] = notEq16 a b) ∧
      (∀ r, r ≠ vd → readVr t r = readVr s r) ∧ t.diag = s.diag ∧ t.params = s.params ∧ t.feed = s.feed

/-- R171. VABS completes in every state: the corner-corrected value to the destination and the low slice, both flag
vectors and everything else unchanged. The match value rests on D1, D2 (log entry 6), the broadcast on D3 (log entry
7), the untouched flags on D9 (log entry 13). -/
def Obligations.VabsNegatesBySignAndKeepsFlags : Prop :=
  ∀ (vd vs vt : VReg) (e : Elem) (s : State),
    encode (.vabs vd vs vt e) &&& 0xFE00003F#32 = 0x4A000013#32 ∧
    ∃ t, exec (.vabs vd vs vt e) s = .next t ∧
      (∀ i : Fin 8, ∀ a b : Lane,
        a = (readVr s vs)[i] → b = (bcast (readVr s vt) e)[i] →
        (readVr t vd)[i] = abs16 a b ∧
        sliceLo t.acc[i] = abs16 a b ∧ sliceMd t.acc[i] = sliceMd s.acc[i] ∧ sliceHi t.acc[i] = sliceHi s.acc[i]) ∧
      t.co = s.co ∧ t.ne = s.ne ∧
      (∀ r, r ≠ vd → readVr t r = readVr s r) ∧ t.diag = s.diag ∧ t.params = s.params ∧ t.feed = s.feed

/-- R190 to R194. VSAW completes in every state, for all operands: on a legal select the raw slice the map gives, in
every lane, and no record; on an illegal one the destination unchanged, or 0 under ZERO, and exactly one record with the
offending select; nothing else changed. The match value rests on the spec's decision D1, D2 (log entry 6), the select on
D4 (log entry 9), the alternatives REVERSED and ZERO on D5, D6 (log entries 10 and 11). -/
def Obligations.VsawReadsASliceOrFallsBackAndLogs : Prop :=
  ∀ (vd vs vt : VReg) (e : Elem) (s : State) (sel : Sel), sel = sawSel s.params.sawDecode e →
    encode (.vsaw vd vs vt e) &&& 0xFE00003F#32 = 0x4A00001D#32 ∧
    ∃ t, exec (.vsaw vd vs vt e) s = .next t ∧
      (∀ i : Fin 8,
        (s.params.sawSliceMap = .doc →
          (sel = 0 → (readVr t vd)[i] = s.acc[i].extractLsb' 0 16) ∧
          (sel = 1 → (readVr t vd)[i] = s.acc[i].extractLsb' 16 16) ∧
          (sel = 2 → (readVr t vd)[i] = s.acc[i].extractLsb' 32 16)) ∧
        (s.params.sawSliceMap = .reversed →
          (sel = 0 → (readVr t vd)[i] = s.acc[i].extractLsb' 32 16) ∧
          (sel = 1 → (readVr t vd)[i] = s.acc[i].extractLsb' 16 16) ∧
          (sel = 2 → (readVr t vd)[i] = s.acc[i].extractLsb' 0 16)) ∧
        (2 < sel.toNat →
          (s.params.sawIllegal = .unchanged → (readVr t vd)[i] = (readVr s vd)[i]) ∧
          (s.params.sawIllegal = .zero → (readVr t vd)[i] = 0))) ∧
      (sel.toNat ≤ 2 → t.diag = s.diag) ∧
      (2 < sel.toNat → t.diag = s.diag ++ [{ kind := .illegalSawElement, sel := sel }]) ∧
      t.acc = s.acc ∧ t.co = s.co ∧ t.ne = s.ne ∧
      (∀ r, r ≠ vd → readVr t r = readVr s r) ∧ t.params = s.params ∧ t.feed = s.feed

/-- VSAW does not read its source and target (44_accumulator_read.md, R190; the spec's decision D21, log entry 19):
any register numbers there give the same outcome. -/
def Obligations.VsawIgnoresSourceAndTarget : Prop :=
  ∀ (vd vs vt vs' vt' : VReg) (e : Elem) (s : State),
    exec (.vsaw vd vs vt e) s = exec (.vsaw vd vs' vt' e) s

/-- R22 (the spec's decision D16). No register is hardwired: a value copied into any register, `VR[0]` among them, by
adding zero to it reads back as that value. -/
def Obligations.CopyIntoAnyRegisterReadsBack : Prop :=
  ∀ (r vs vt : VReg) (v : Vec) (s : State),
    readVr s vs = v → readVr s vt = Vector.replicate 8 0 →
    ∃ t, exec (.vaddc r vs vt 0) s = .next t ∧ readVr t r = v

/-! ### Whole-machine rules -/

/-- R30. The table of flag and accumulator effects: which vectors each opcode clears, writes or keeps, and that only
the low slice of the accumulator is ever written. -/
def Obligations.FlagAndAccumulatorEffectsTable : Prop :=
  ∀ (i : Instr) (s : State), ∃ t, exec i s = .next t ∧
    (∀ k : Fin 8, t.acc[k].extractLsb' 16 32 = s.acc[k].extractLsb' 16 32) ∧
    (match i.op with
     | .vadd | .vsub => t.co = Vector.replicate 8 false ∧ t.ne = Vector.replicate 8 false
     | .vaddc => t.ne = Vector.replicate 8 false ∧
         ∀ k : Fin 8, t.co[k] = carry16 (readVr s i.vs)[k] (bcast (readVr s i.vt) i.e)[k]
     | .vsubc => ∀ k : Fin 8, t.co[k] = borrow16 (readVr s i.vs)[k] (bcast (readVr s i.vt) i.e)[k] ∧
         t.ne[k] = notEq16 (readVr s i.vs)[k] (bcast (readVr s i.vt) i.e)[k]
     | .vabs => t.co = s.co ∧ t.ne = s.ne
     | .vsaw => t.co = s.co ∧ t.ne = s.ne ∧ t.acc = s.acc) ∧
    (match i.op with
     | .vaddc | .vsubc | .vabs => ∀ k : Fin 8, (readVr t i.vd)[k] = sliceLo t.acc[k]
     | .vadd | .vsub | .vsaw => True)

/-- R102. Lanes are independent: lane `k` of a handler's destination, accumulator and carry depends only on lane `k` of
the operands, the accumulator and the carry, and on the select; lane `k` of the not-equal vector does too, except that
VABS and VSAW pass `ne[k]` itself through (log entry 24). -/
def Obligations.HandlerLanesAreIndependent : Prop :=
  ∀ (p : Params) (op : Op) (x y : CoreIn) (k : Fin 8),
    x.sIn[k] = y.sIn[k] → x.tIn[k] = y.tIn[k] → x.dIn[k] = y.dIn[k] → x.acc[k] = y.acc[k] → x.co[k] = y.co[k] →
    x.sel = y.sel →
    (handler p op x).dOut[k] = (handler p op y).dOut[k] ∧ (handler p op x).acc[k] = (handler p op y).acc[k] ∧
    (handler p op x).co[k] = (handler p op y).co[k] ∧
    ((x.ne[k] = y.ne[k] ∨ (op ≠ .vabs ∧ op ≠ .vsaw)) → (handler p op x).ne[k] = (handler p op y).ne[k])

/-- R31, R150. Stale flags never leak: VADDC and VSUBC give the same next state whatever both flag vectors held, and
VADD and VSUB whatever `ne` held. -/
def Obligations.StaleFlagsNeverLeak : Prop :=
  ∀ (i : Instr) (s : State) (co ne : FlagVec),
    ((i.op = .vaddc ∨ i.op = .vsubc) → exec i { s with co := co, ne := ne } = exec i s) ∧
    ((i.op = .vadd ∨ i.op = .vsub) → exec i { s with ne := ne } = exec i s)

/-- R245. A carry is consumed once: after any VADD or VSUB, a VADD adds no carry in any lane. -/
def Obligations.CarryIsConsumedOnce : Prop :=
  ∀ (i : Instr) (s t : State), (i.op = .vadd ∨ i.op = .vsub) → exec i s = .next t →
    ∀ (vd vs vt : VReg) (e : Elem), ∃ u, exec (.vadd vd vs vt e) t = .next u ∧
      ∀ k : Fin 8, (readVr u vd)[k] = clamp16 (s16 (readVr t vs)[k] + s16 (bcast (readVr t vt) e)[k])

/-- R243. A VSAW right after an instruction reads the accumulator it wrote: after VADD or VSUB it reads the wrapped
result, under the slice map DOC and a select of 0. -/
def Obligations.AccumulatorReadSeesTheWriteBeforeIt : Prop :=
  ∀ (vd vs vt vd' vs' vt' : VReg) (e e' : Elem) (s : State),
    s.params.sawSliceMap = .doc → sawSel s.params.sawDecode e' = 0 →
    (∃ t u, exec (.vadd vd vs vt e) s = .next t ∧ exec (.vsaw vd' vs' vt' e') t = .next u ∧
      ∀ k : Fin 8, (readVr u vd')[k] = accAdd (readVr s vs)[k] (bcast (readVr s vt) e)[k] s.co[k]) ∧
    (∃ t u, exec (.vsub vd vs vt e) s = .next t ∧ exec (.vsaw vd' vs' vt' e') t = .next u ∧
      ∀ k : Fin 8, (readVr u vd')[k] = accSub (readVr s vs)[k] (bcast (readVr s vt) e)[k] s.co[k])

/-- A carry chain is a 32-bit addition (R151, R131, R243): VADDC of the low halves, then VADD of the high halves, leave
in the accumulator and the low destination the 32-bit sum of each lane; and where that signed sum fits in 32 bits, the
high destination holds its high half too. -/
def Obligations.CarryChainAddsThirtyTwoBitLanes : Prop :=
  ∀ (dl sl tl dh sh th : VReg) (el eh : Elem) (s : State), dl ≠ sh → dl ≠ th → dl ≠ dh →
    ∃ t u, exec (.vaddc dl sl tl el) s = .next t ∧ exec (.vadd dh sh th eh) t = .next u ∧
      ∀ k : Fin 8, ∀ x y : BitVec 32,
        x = (readVr s sh)[k] ++ (readVr s sl)[k] →
        y = (bcast (readVr s th) eh)[k] ++ (bcast (readVr s tl) el)[k] →
        sliceLo u.acc[k] ++ (readVr u dl)[k] = x + y ∧
        (-2147483648 ≤ x.toInt + y.toInt → x.toInt + y.toInt ≤ 2147483647 →
          (readVr u dh)[k] ++ (readVr u dl)[k] = x + y)

/-- A borrow chain is a 32-bit subtraction (R152, R132, R243): VSUBC of the low halves, then VSUB of the high halves;
the saturated half under the policy EXACT. -/
def Obligations.BorrowChainSubtractsThirtyTwoBitLanes : Prop :=
  ∀ (dl sl tl dh sh th : VReg) (el eh : Elem) (s : State), dl ≠ sh → dl ≠ th → dl ≠ dh →
    ∃ t u, exec (.vsubc dl sl tl el) s = .next t ∧ exec (.vsub dh sh th eh) t = .next u ∧
      ∀ k : Fin 8, ∀ x y : BitVec 32,
        x = (readVr s sh)[k] ++ (readVr s sl)[k] →
        y = (bcast (readVr s th) eh)[k] ++ (bcast (readVr s tl) el)[k] →
        sliceLo u.acc[k] ++ (readVr u dl)[k] = x - y ∧
        (s.params.subPolicy = .exact → -2147483648 ≤ x.toInt - y.toInt → x.toInt - y.toInt ≤ 2147483647 →
          (readVr u dh)[k] ++ (readVr u dl)[k] = x - y)

/-- VABS of a register with itself is its saturating absolute value, lane by lane (R171's corner case). -/
def Obligations.VabsOfARegisterWithItselfIsItsMagnitude : Prop :=
  ∀ (vd r : VReg) (s : State), ∃ t, exec (.vabs vd r r 0) s = .next t ∧
    ∀ k : Fin 8, (readVr t vd)[k].toInt = min 32767 |(readVr s r)[k].toInt|

/-- A borrow implies inequality after every VSUBC, and equal operands leave neither (R152's corner cases). -/
def Obligations.BorrowImpliesInequality : Prop :=
  ∀ (vd vs vt : VReg) (e : Elem) (s : State), ∃ t, exec (.vsubc vd vs vt e) s = .next t ∧
    ∀ k : Fin 8, (t.co[k] = true → t.ne[k] = true) ∧
      ((readVr s vs)[k] = (bcast (readVr s vt) e)[k] → t.co[k] = false ∧ t.ne[k] = false)

/-! ### The diagnostic log -/

/-- R34. Only VSAW with an illegal select appends to the log, and what the log holds changes nothing else. -/
def Obligations.LogIsAppendOnlyAndNeverRead : Prop :=
  ∀ (i : Instr) (s t : State) (d : List Diag), exec i s = .next t →
    ∃ new : List Diag, t.diag = s.diag ++ new ∧
      (new ≠ [] ↔ i.op = .vsaw ∧ 2 < (sawSel s.params.sawDecode i.e).toNat) ∧ new.length ≤ 1 ∧
      exec i { s with diag := d } = .next { t with diag := d ++ new }

/-- Every record of the log has an illegal select, and the select 7 under XOR8 (R192, R212; XOR8 is the spec's decision
D4): from every state of which this holds, a step gives one of which it holds. -/
def Obligations.StepKeepsDiagnosticInvariant : Prop :=
  ∀ s t : State, DiagInv s → step s = .next t → DiagInv t

/-! ### Steps and runs -/

/-- When the decoder's next event is a word that decodes, a step runs exactly that instruction, on the state with the
event taken (the feed is the model's own, log entry 2). -/
def Obligations.StepRunsTheDecodedInstruction : Prop :=
  ∀ (s : State) (w : Word) (rest : List Event) (i : Instr),
    s.feed = .word w :: rest → decode w = .ok i → step s = exec i { s with feed := rest }

/-- A word that matches no row of the opcode table is refused by name, whatever the state (30_encoding.md section 4 and
the spec's decision D15; log entry 15). -/
def Obligations.ForeignWordIsRefusedByName : Prop :=
  ∀ (s : State) (w : Word) (rest : List Event), s.feed = .word w :: rest →
    (∀ o : Op, w &&& 0xFE00003F#32 ≠ Op.matchValue o) →
    (w.extractLsb' 25 7 ≠ 0b0100101#7 → step s = .refused (.notCoreInstruction w)) ∧
    (w.extractLsb' 25 7 = 0b0100101#7 → step s = .refused (.notCoreFunct w))

/-- With no event waiting a step changes nothing (the model's choice, log entry 3). -/
def Obligations.StepWithoutEventChangesNothing : Prop :=
  ∀ s : State, s.feed = [] → step s = .next s

/-- R36. An instruction of a peer family writes what its event carries, slice by slice, and nothing else; one
destination register among it is the model's inference (log entry 4). -/
def Obligations.PeerWritesOnlyWhatItsEventCarries : Prop :=
  ∀ (s : State) (p : PeerWrite) (rest : List Event), s.feed = .peer p :: rest →
    ∃ t, step s = .next t ∧ t.feed = rest ∧ t.diag = s.diag ∧ t.params = s.params ∧
      t.co = p.co.getD s.co ∧ t.ne = p.ne.getD s.ne ∧
      (∀ k : Fin 8,
        sliceLo t.acc[k] = (p.accLo.map fun v => v[k]).getD (sliceLo s.acc[k]) ∧
        sliceMd t.acc[k] = (p.accMd.map fun v => v[k]).getD (sliceMd s.acc[k]) ∧
        sliceHi t.acc[k] = (p.accHi.map fun v => v[k]).getD (sliceHi s.acc[k])) ∧
      (∀ r : VReg, (∀ v, p.vr ≠ some (r, v)) → readVr t r = readVr s r) ∧
      (∀ (r : VReg) (v : Vec), p.vr = some (r, v) → readVr t r = v)

/-- No step changes the parameters (the parameters stand in the state by the model's choice, log entry 1). -/
def Obligations.StepKeepsParameters : Prop :=
  ∀ s t : State, step s = .next t → t.params = s.params

/-- Words of the core never write the upper slices of the accumulator, over whole steps: after a step that is not a peer
family's event, bits 47:16 of every lane are what they were (R26). -/
def Obligations.StepOfTheCoreKeepsUpperSlices : Prop :=
  ∀ s t : State, step s = .next t → (∀ p rest, s.feed ≠ .peer p :: rest) →
    ∀ k : Fin 8, sliceMd t.acc[k] = sliceMd s.acc[k] ∧ sliceHi t.acc[k] = sliceHi s.acc[k]

/-- Instructions take effect one at a time, in the order the decoder brings their words, each on the state the one before
it left (20_memory.md section 5): a run over the encodings of a list of instructions is the composition of their
meanings. The word layout is the spec's decision D1, D2 (log entry 6); the feed is the model's own (log entry 2). -/
def Obligations.RunOfEncodedInstructionsIsTheirCompositionInOrder : Prop :=
  ∀ (is : List Instr) (s : State) (rest : List Event),
    s.feed = is.map (fun i => .word (encode i)) ++ rest →
    runFor is.length s = execAll is { s with feed := rest }

/-- A state whose waiting events are all the core's (words that decode, peer families' writes) never stops, and a run as
long as the feed takes them all (60_exceptions.md section 1 over runs; the spec's decision D13, log entry 16). The feed
and the peer families' events are the model's own (log entries 2 and 4), and that no longer run stops either, past the
end of the feed, rests on the model's choice of an idle step (log entry 3). -/
def Obligations.CoreEventsRunToTheEnd : Prop :=
  ∀ s : State, (∀ ev ∈ s.feed, coreEvent ev = true) →
    Safe s ∧ ∃ t, runFor s.feed.length s = .next t ∧ t.feed = []

/-- R213. From the first word that is not the core's a run has no meaning: every run long enough to reach it is
refused, by a refusal that names it (the names are the spec's decision D15, log entry 15; the feed and the peer
families' events are the model's own, log entries 2 and 4). -/
def Obligations.RunIsRefusedAtTheFirstForeignWord : Prop :=
  ∀ (s : State) (pre post : List Event) (w : Word) (n : Nat),
    s.feed = pre ++ .word w :: post → (∀ ev ∈ pre, coreEvent ev = true) → coreEvent (.word w) = false →
    pre.length < n →
    runFor n s = .refused (.notCoreInstruction w) ∨ runFor n s = .refused (.notCoreFunct w)

/-- R222. Instances share no state: a step of one leaves every other as it was, and its own result is the step of its
own state alone. It speaks of steps that answer a next list; that a word refused at one instance refuses the system's
step is the model's choice (log entry 27). -/
def Obligations.InstancesShareNoState : Prop :=
  ∀ (k : Nat) (cores next : List State), stepInstance k cores = .next next →
    next.length = cores.length ∧ (∀ j, j ≠ k → next[j]? = cores[j]?) ∧
    (∀ s, cores[k]? = some s → ∃ t, step s = .next t ∧ next[k]? = some t)

/-! ### Views of a register -/

/-- Lane placement and the byte and 64-bit views (10_state.md section 2, 20_memory.md section 2; the spec's decision
D11, log entry 14). -/
def Obligations.RegisterViewsAreBigEndianLanes : Prop :=
  ∀ v : Vec,
    (∀ i : Fin 8, (vecBits v).extractLsb' (112 - 16 * i.val) 16 = v[i]) ∧
    ofBits (vecBits v) = v ∧ (∀ b : BitVec 128, vecBits (ofBits b) = b) ∧
    (∀ i : Fin 8, v[i] = vecByte v ⟨2 * i.val, by omega⟩ ++ vecByte v ⟨2 * i.val + 1, by omega⟩) ∧
    vecDword v 0 = v[0] ++ v[1] ++ v[2] ++ v[3] ∧ vecDword v 1 = v[4] ++ v[5] ++ v[6] ++ v[7]
end

