-- ==== Sys2Proof/Laws/State.lean ====
section
/-! SUPPORT. One lemma per field per update of the state, so that no later proof unfolds a record update. -/

namespace Sys2Proof.Machine

@[simp] theorem writeVr_vr (s : State) (r : VReg) (v : Vec) : (writeVr s r v).vr = s.vr.set r.toNat v r.isLt := rfl
@[simp] theorem writeVr_acc (s : State) (r : VReg) (v : Vec) : (writeVr s r v).acc = s.acc := rfl
@[simp] theorem writeVr_co (s : State) (r : VReg) (v : Vec) : (writeVr s r v).co = s.co := rfl
@[simp] theorem writeVr_ne (s : State) (r : VReg) (v : Vec) : (writeVr s r v).ne = s.ne := rfl
@[simp] theorem writeVr_diag (s : State) (r : VReg) (v : Vec) : (writeVr s r v).diag = s.diag := rfl
@[simp] theorem writeVr_params (s : State) (r : VReg) (v : Vec) : (writeVr s r v).params = s.params := rfl
@[simp] theorem writeVr_feed (s : State) (r : VReg) (v : Vec) : (writeVr s r v).feed = s.feed := rfl

@[simp] theorem writeBack_vr (s : State) (r : VReg) (o : CoreOut) :
    (writeBack s r o).vr = s.vr.set r.toNat o.dOut r.isLt := rfl
@[simp] theorem writeBack_acc (s : State) (r : VReg) (o : CoreOut) : (writeBack s r o).acc = o.acc := rfl
@[simp] theorem writeBack_co (s : State) (r : VReg) (o : CoreOut) : (writeBack s r o).co = o.co := rfl
@[simp] theorem writeBack_ne (s : State) (r : VReg) (o : CoreOut) : (writeBack s r o).ne = o.ne := rfl
@[simp] theorem writeBack_diag (s : State) (r : VReg) (o : CoreOut) :
    (writeBack s r o).diag = s.diag ++ o.diag.toList := rfl
@[simp] theorem writeBack_params (s : State) (r : VReg) (o : CoreOut) : (writeBack s r o).params = s.params := rfl
@[simp] theorem writeBack_feed (s : State) (r : VReg) (o : CoreOut) : (writeBack s r o).feed = s.feed := rfl

@[simp] theorem applyPeer_acc (p : PeerWrite) (s : State) : (applyPeer p s).acc = peerAcc p s.acc := by
  unfold applyPeer; split <;> rfl
@[simp] theorem applyPeer_co (p : PeerWrite) (s : State) : (applyPeer p s).co = p.co.getD s.co := by
  unfold applyPeer; split <;> rfl
@[simp] theorem applyPeer_ne (p : PeerWrite) (s : State) : (applyPeer p s).ne = p.ne.getD s.ne := by
  unfold applyPeer; split <;> rfl
@[simp] theorem applyPeer_diag (p : PeerWrite) (s : State) : (applyPeer p s).diag = s.diag := by
  unfold applyPeer; split <;> rfl
@[simp] theorem applyPeer_params (p : PeerWrite) (s : State) : (applyPeer p s).params = s.params := by
  unfold applyPeer; split <;> rfl
@[simp] theorem applyPeer_feed (p : PeerWrite) (s : State) : (applyPeer p s).feed = s.feed := by
  unfold applyPeer; split <;> rfl

@[simp] theorem pushEvent_feed (s : State) (ev : Event) : (pushEvent s ev).feed = ev :: s.feed := rfl
@[simp] theorem pushEvent_vr (s : State) (ev : Event) : (pushEvent s ev).vr = s.vr := rfl
@[simp] theorem pushEvent_acc (s : State) (ev : Event) : (pushEvent s ev).acc = s.acc := rfl
@[simp] theorem pushEvent_co (s : State) (ev : Event) : (pushEvent s ev).co = s.co := rfl
@[simp] theorem pushEvent_ne (s : State) (ev : Event) : (pushEvent s ev).ne = s.ne := rfl
@[simp] theorem pushEvent_diag (s : State) (ev : Event) : (pushEvent s ev).diag = s.diag := rfl
@[simp] theorem pushEvent_params (s : State) (ev : Event) : (pushEvent s ev).params = s.params := rfl

/-- Taking the event just pushed gives it and the state back. -/
@[simp] theorem takeEvent_pushEvent (s : State) (ev : Event) : takeEvent (pushEvent s ev) = some (ev, s) := rfl

end Sys2Proof.Machine
end

