-- ==== Sys2Proof/Laws/Ops.lean ====
section
/-! SUPPORT. What each shared operation over the registers and the accumulator does, said once. -/

namespace Sys2Proof.Machine

/-- A vector built lane by lane reads back lane by lane. -/
@[simp] theorem lanewise_get {α : Type} (f : Fin 8 → α) (i : Nat) (h : i < 8) : (lanewise f)[i] = f ⟨i, h⟩ := by
  simp [lanewise]

/-- Two vectors of 8 lanes are equal if every lane is. -/
theorem lanes_ext {α : Type} {a b : Vector α 8} (h : ∀ i : Fin 8, a[i] = b[i]) : a = b :=
  Vector.ext fun i hi => h ⟨i, hi⟩

/-- The register just written reads as what was written. -/
@[simp] theorem readVr_writeVr_same (s : State) (r : VReg) (v : Vec) : readVr (writeVr s r v) r = v := by
  simp [readVr]

/-- Every other register reads as before. -/
theorem readVr_writeVr_other (s : State) (r q : VReg) (v : Vec) (h : q ≠ r) :
    readVr (writeVr s r v) q = readVr s q := by
  have h' : r.toNat ≠ q.toNat := fun e => h (BitVec.eq_of_toNat_eq e.symm)
  simp [readVr, h']

/-- A register read sees only the bank. -/
theorem readVr_congr {s t : State} (h : s.vr = t.vr) (r : VReg) : readVr s r = readVr t r := by
  simp [readVr, h]

/-- After a write-back the destination reads as the handler's result. -/
@[simp] theorem readVr_writeBack_same (s : State) (r : VReg) (o : CoreOut) : readVr (writeBack s r o) r = o.dOut := by
  simp [writeBack]

/-- A write-back leaves every other register alone. -/
theorem readVr_writeBack_other (s : State) (r q : VReg) (o : CoreOut) (h : q ≠ r) :
    readVr (writeBack s r o) q = readVr s q := by
  rw [writeBack, readVr_writeVr_other _ _ _ _ h]; rfl

/-- The bits of a lane whose low slice was written. -/
theorem withLo_getLsbD (a : AccLane) (x : Lane) (j : Nat) :
    (withLo a x).getLsbD j = if j < 16 then x.getLsbD j else (a.extractLsb' 16 32).getLsbD (j - 16) :=
  BitVec.getLsbD_append

/-- The bits of a lane given by its slices. -/
theorem ofSlices_getLsbD (h m l : Lane) (j : Nat) :
    (ofSlices h m l).getLsbD j =
      if j < 16 then l.getLsbD j else if j - 16 < 16 then m.getLsbD (j - 16) else h.getLsbD (j - 16 - 16) := by
  have e : (ofSlices h m l).getLsbD j = if j < 16 then l.getLsbD j else (h ++ m).getLsbD (j - 16) :=
    BitVec.getLsbD_append
  rw [e, BitVec.getLsbD_append]

@[simp] theorem sliceLo_withLo (a : AccLane) (x : Lane) : sliceLo (withLo a x) = x := by
  ext j hj; simp [sliceLo, withLo_getLsbD, hj]

@[simp] theorem sliceMd_withLo (a : AccLane) (x : Lane) : sliceMd (withLo a x) = sliceMd a := by
  ext j hj; simp [sliceMd, withLo_getLsbD]; omega

@[simp] theorem sliceHi_withLo (a : AccLane) (x : Lane) : sliceHi (withLo a x) = sliceHi a := by
  ext j hj
  simp [sliceHi, withLo_getLsbD, show ¬ 32 + j < 16 by omega, show 32 + j - 16 < 32 by omega,
    show 16 + (32 + j - 16) = 32 + j by omega]

/-- A low-slice write leaves bits 47:16 as they were (R26). -/
@[simp] theorem upper_withLo (a : AccLane) (x : Lane) : (withLo a x).extractLsb' 16 32 = a.extractLsb' 16 32 := by
  ext j hj; simp [withLo_getLsbD, hj]

@[simp] theorem sliceLo_ofSlices (h m l : Lane) : sliceLo (ofSlices h m l) = l := by
  ext j hj; simp [sliceLo, ofSlices_getLsbD, hj]

@[simp] theorem sliceMd_ofSlices (h m l : Lane) : sliceMd (ofSlices h m l) = m := by
  ext j hj; simp [sliceMd, ofSlices_getLsbD, hj]

@[simp] theorem sliceHi_ofSlices (h m l : Lane) : sliceHi (ofSlices h m l) = h := by
  ext j hj
  simp [sliceHi, ofSlices_getLsbD, show ¬ 32 + j < 16 by omega, show ¬ 32 + j - 16 < 16 by omega,
    show 32 + j - 16 - 16 = j by omega, hj]

/-- Two accumulator lanes are equal if their three slices are. -/
theorem slices_ext {a b : AccLane} (hl : sliceLo a = sliceLo b) (hm : sliceMd a = sliceMd b)
    (hh : sliceHi a = sliceHi b) : a = b := by
  apply BitVec.eq_of_getLsbD_eq
  intro j hj
  by_cases h1 : j < 16
  · simpa [sliceLo, h1] using congrArg (·.getLsbD j) hl
  · by_cases h2 : j < 32
    · simpa [sliceMd, show j - 16 < 16 by omega, show 16 + (j - 16) = j by omega] using
        congrArg (·.getLsbD (j - 16)) hm
    · simpa [sliceHi, show j - 32 < 16 by omega, show 32 + (j - 32) = j by omega] using
        congrArg (·.getLsbD (j - 32)) hh

/-- Writing the low slices of the whole bank, lane by lane. -/
@[simp] theorem writeLow_get (acc : AccBank) (v : Vec) (i : Nat) (h : i < 8) :
    (writeLow acc v)[i] = withLo acc[i] v[i] := by
  simp [writeLow]

/-- A peer's write of the accumulator, lane by lane. -/
theorem peerAcc_get (p : PeerWrite) (acc : AccBank) (i : Nat) (h : i < 8) :
    (peerAcc p acc)[i] = ofSlices ((p.accHi.map fun v => v[i]).getD (sliceHi acc[i]))
      ((p.accMd.map fun v => v[i]).getD (sliceMd acc[i])) ((p.accLo.map fun v => v[i]).getD (sliceLo acc[i])) := by
  simp [peerAcc]

end Sys2Proof.Machine
end

