-- ==== Sys2Proof/Laws/Words.lean ====
section
/-! SUPPORT. The fields of an encoded word, and the opcode map read both ways. -/

namespace Sys2Proof

/-- Bit `j` of an encoded word, field by field from bit 0 up. -/
theorem encodeVC_getLsbD (f : BitVec 6) (vd vs vt : VReg) (e : Elem) (j : Nat) :
    (encodeVC f vd vs vt e).getLsbD j =
      if j < 6 then f.getLsbD j
      else if j < 11 then vd.getLsbD (j - 6)
      else if j < 16 then vs.getLsbD (j - 11)
      else if j < 21 then vt.getLsbD (j - 16)
      else if j < 25 then e.getLsbD (j - 21)
      else (0b0100101#7).getLsbD (j - 25) := by
  have h6 : (encodeVC f vd vs vt e).getLsbD j =
      if j < 6 then f.getLsbD j else (0b010010#6 ++ 1#1 ++ e ++ vt ++ vs ++ vd).getLsbD (j - 6) :=
    BitVec.getLsbD_append
  rw [h6]
  simp only [BitVec.getLsbD_append]
  have c : ∀ k, (if k < 1 then (1#1).getLsbD k else (0b010010#6).getLsbD (k - 1)) = (0b0100101#7).getLsbD k := by
    intro k
    rcases k with _ | _ | _ | _ | _ | _ | _ | k <;> simp
  rw [c]
  by_cases a1 : j < 6
  · simp [a1]
  by_cases a2 : j < 11
  · simp [a1, a2, show j - 6 < 5 by omega]
  by_cases a3 : j < 16
  · simp [a1, a2, a3, show ¬ j - 6 < 5 by omega, show j - 11 < 5 by omega, show j - 6 - 5 = j - 11 by omega]
  by_cases a4 : j < 21
  · simp [a1, a2, a3, a4, show ¬ j - 6 < 5 by omega, show ¬ j - 6 - 5 < 5 by omega, show j - 16 < 5 by omega,
      show j - 6 - 5 - 5 = j - 16 by omega]
  have n1 : ¬ j - 6 < 5 := by omega
  have n2 : ¬ j - 6 - 5 < 5 := by omega
  have n3 : ¬ j - 6 - 5 - 5 < 5 := by omega
  by_cases a5 : j < 25
  · simp [a1, a2, a3, a4, a5, n1, n2, n3, show j - 21 < 4 by omega,
      show j - 6 - 5 - 5 - 5 = j - 21 by omega]
  · simp [a1, a2, a3, a4, a5, n1, n2, n3, show ¬ j - 6 - 5 - 5 - 5 < 4 by omega,
      show j - 6 - 5 - 5 - 5 - 4 = j - 25 by omega]

theorem fieldFunct_encodeVC (f : BitVec 6) (vd vs vt : VReg) (e : Elem) :
    fieldFunct (encodeVC f vd vs vt e) = f := by
  ext j hj; simp [fieldFunct, encodeVC_getLsbD, hj]

theorem fieldVd_encodeVC (f : BitVec 6) (vd vs vt : VReg) (e : Elem) :
    fieldVd (encodeVC f vd vs vt e) = vd := by
  ext j hj; simp [fieldVd, encodeVC_getLsbD, show 6 + j < 11 by omega, hj]

theorem fieldVs_encodeVC (f : BitVec 6) (vd vs vt : VReg) (e : Elem) :
    fieldVs (encodeVC f vd vs vt e) = vs := by
  ext j hj
  simp [fieldVs, encodeVC_getLsbD, show ¬ 11 + j < 6 by omega, show 11 + j < 16 by omega, hj]

theorem fieldVt_encodeVC (f : BitVec 6) (vd vs vt : VReg) (e : Elem) :
    fieldVt (encodeVC f vd vs vt e) = vt := by
  ext j hj
  simp [fieldVt, encodeVC_getLsbD, show ¬ 16 + j < 6 by omega, show ¬ 16 + j < 11 by omega,
    show 16 + j < 21 by omega, hj]

theorem fieldE_encodeVC (f : BitVec 6) (vd vs vt : VReg) (e : Elem) :
    fieldE (encodeVC f vd vs vt e) = e := by
  ext j hj
  simp [fieldE, encodeVC_getLsbD, show ¬ 21 + j < 6 by omega, show ¬ 21 + j < 11 by omega,
    show ¬ 21 + j < 16 by omega, show 21 + j < 25 by omega, hj]

/-- The seven bits above the operand fields are those of the format (R71). -/
theorem head_encodeVC (f : BitVec 6) (vd vs vt : VReg) (e : Elem) :
    (encodeVC f vd vs vt e).extractLsb' 25 7 = 0b0100101#7 := by
  ext j hj
  simp only [BitVec.getElem_extractLsb', encodeVC_getLsbD, show ¬ 25 + j < 6 by omega, show ¬ 25 + j < 11 by omega,
    show ¬ 25 + j < 16 by omega, show ¬ 25 + j < 21 by omega, show ¬ 25 + j < 25 by omega, if_false,
    show 25 + j - 25 = j by omega]
  rfl

theorem fieldMajor_encodeVC (f : BitVec 6) (vd vs vt : VReg) (e : Elem) :
    fieldMajor (encodeVC f vd vs vt e) = 0b010010#6 := by
  have h := congrArg (BitVec.extractLsb' 1 6) (head_encodeVC f vd vs vt e)
  ext j hj
  have hj' := congrArg (·.getLsbD j) h
  simpa [fieldMajor, hj, show 1 + j < 7 by omega, show 25 + (1 + j) = 26 + j by omega] using hj'

theorem fieldCoBit_encodeVC (f : BitVec 6) (vd vs vt : VReg) (e : Elem) :
    fieldCoBit (encodeVC f vd vs vt e) = 1#1 := by
  have h := congrArg (·.getLsbD 0) (head_encodeVC f vd vs vt e)
  ext j hj
  obtain rfl : j = 0 := by omega
  simpa [fieldCoBit] using h

/-- The opcode map takes a function code to its opcode (R73). -/
theorem ofFunct_funct (o : Op) : Op.ofFunct o.funct = some o := by
  cases o <;> decide

/-- It takes no other code to it. -/
theorem funct_of_ofFunct {f : BitVec 6} {o : Op} (h : Op.ofFunct f = some o) : f = o.funct := by
  revert f o; decide

@[simp] theorem ofFields_op (o : Op) (vd vs vt : VReg) (e : Elem) : (Instr.ofFields o vd vs vt e).op = o := by
  cases o <;> rfl
@[simp] theorem ofFields_vd (o : Op) (vd vs vt : VReg) (e : Elem) : (Instr.ofFields o vd vs vt e).vd = vd := by
  cases o <;> rfl
@[simp] theorem ofFields_vs (o : Op) (vd vs vt : VReg) (e : Elem) : (Instr.ofFields o vd vs vt e).vs = vs := by
  cases o <;> rfl
@[simp] theorem ofFields_vt (o : Op) (vd vs vt : VReg) (e : Elem) : (Instr.ofFields o vd vs vt e).vt = vt := by
  cases o <;> rfl
@[simp] theorem ofFields_e (o : Op) (vd vs vt : VReg) (e : Elem) : (Instr.ofFields o vd vs vt e).e = e := by
  cases o <;> rfl

/-- An instruction is its opcode and its fields. -/
@[simp] theorem ofFields_self (i : Instr) : Instr.ofFields i.op i.vd i.vs i.vt i.e = i := by
  cases i <;> rfl

end Sys2Proof
end

