-- ==== Sys2Proof/Laws/PerInstr.lean ====
section
/-! SUPPORT. Statements about every instruction as syntax, one lemma per constructor. -/

namespace Sys2Proof.Laws.MaskMatch

/-- The word of an instruction, under the mask of the opcode table, is its row's match value (30_encoding.md R74). -/
def Statement (i : Instr) : Prop := encode i &&& opcodeMask = i.op.matchValue

/-- The masked word, for any function code. -/
theorem masked_encodeVC (f : BitVec 6) (vd vs vt : VReg) (e : Elem) :
    encodeVC f vd vs vt e &&& opcodeMask = encodeVC f 0 0 0 0 := by
  apply BitVec.eq_of_getLsbD_eq
  intro j hj
  simp only [BitVec.getLsbD_and, encodeVC_getLsbD, opcodeMask]
  have m : ∀ j : Fin 32, (0xFE00003F#32).getLsbD j.val = decide (j.val < 6 ∨ 25 ≤ j.val) := by decide
  rw [m ⟨j, hj⟩]
  by_cases a1 : j < 6
  · simp [a1]
  by_cases a5 : j < 25
  · simp [a1, a5, show ¬ 25 ≤ j by omega]
  · simp [a1, a5, show 25 ≤ j by omega, show ¬ j < 11 by omega, show ¬ j < 16 by omega, show ¬ j < 21 by omega]

/-- With its operand fields zero a word is its row's match value. -/
theorem bare_encodeVC (o : Op) : encodeVC o.funct 0 0 0 0 = o.matchValue := by
  cases o <;> decide

theorem vadd (vd vs vt : VReg) (e : Elem) : Statement (.vadd vd vs vt e) :=
  (masked_encodeVC _ vd vs vt e).trans (bare_encodeVC _)
theorem vsub (vd vs vt : VReg) (e : Elem) : Statement (.vsub vd vs vt e) :=
  (masked_encodeVC _ vd vs vt e).trans (bare_encodeVC _)
theorem vabs (vd vs vt : VReg) (e : Elem) : Statement (.vabs vd vs vt e) :=
  (masked_encodeVC _ vd vs vt e).trans (bare_encodeVC _)
theorem vaddc (vd vs vt : VReg) (e : Elem) : Statement (.vaddc vd vs vt e) :=
  (masked_encodeVC _ vd vs vt e).trans (bare_encodeVC _)
theorem vsubc (vd vs vt : VReg) (e : Elem) : Statement (.vsubc vd vs vt e) :=
  (masked_encodeVC _ vd vs vt e).trans (bare_encodeVC _)
theorem vsaw (vd vs vt : VReg) (e : Elem) : Statement (.vsaw vd vs vt e) :=
  (masked_encodeVC _ vd vs vt e).trans (bare_encodeVC _)

end Sys2Proof.Laws.MaskMatch
end

