-- ==== Sys2Proof/Laws/Step.lean ====
section
/-! SUPPORT. What the handlers and a step can do, said once. -/

namespace Sys2Proof.Machine

@[simp] theorem clearedFlags_get (i : Nat) (h : i < 8) : clearedFlags[i] = false := by
  simp [clearedFlags]

@[simp] theorem bcast_get (v : Vec) (e : Elem) (i : Nat) (h : i < 8) : (bcast v e)[i] = v[idx e ⟨i, h⟩] := by
  simp [bcast]

/-- The broadcast patterns 0 and 1 are the whole vector (R76). -/
theorem idx_zero (i : Fin 8) : idx 0#4 i = i := by revert i; decide

@[simp] theorem fetchBroadcast_dIn (s : State) (vd vs vt : VReg) (e : Elem) :
    (fetchBroadcast s vd vs vt e).dIn = readVr s vd := rfl
@[simp] theorem fetchBroadcast_sIn (s : State) (vd vs vt : VReg) (e : Elem) :
    (fetchBroadcast s vd vs vt e).sIn = readVr s vs := rfl
@[simp] theorem fetchBroadcast_tIn (s : State) (vd vs vt : VReg) (e : Elem) :
    (fetchBroadcast s vd vs vt e).tIn = bcast (readVr s vt) e := rfl
@[simp] theorem fetchBroadcast_sel (s : State) (vd vs vt : VReg) (e : Elem) :
    (fetchBroadcast s vd vs vt e).sel = 0#3 := rfl
@[simp] theorem fetchBroadcast_acc (s : State) (vd vs vt : VReg) (e : Elem) :
    (fetchBroadcast s vd vs vt e).acc = s.acc := rfl
@[simp] theorem fetchBroadcast_co (s : State) (vd vs vt : VReg) (e : Elem) :
    (fetchBroadcast s vd vs vt e).co = s.co := rfl
@[simp] theorem fetchBroadcast_ne (s : State) (vd vs vt : VReg) (e : Elem) :
    (fetchBroadcast s vd vs vt e).ne = s.ne := rfl
@[simp] theorem fetchSaw_dIn (s : State) (vd vs vt : VReg) (e : Elem) :
    (fetchSaw s vd vs vt e).dIn = readVr s vd := rfl
@[simp] theorem fetchSaw_sel (s : State) (vd vs vt : VReg) (e : Elem) :
    (fetchSaw s vd vs vt e).sel = sawSel s.params.sawDecode e := rfl
@[simp] theorem fetchSaw_acc (s : State) (vd vs vt : VReg) (e : Elem) : (fetchSaw s vd vs vt e).acc = s.acc := rfl
@[simp] theorem fetchSaw_co (s : State) (vd vs vt : VReg) (e : Elem) : (fetchSaw s vd vs vt e).co = s.co := rfl
@[simp] theorem fetchSaw_ne (s : State) (vd vs vt : VReg) (e : Elem) : (fetchSaw s vd vs vt e).ne = s.ne := rfl

/-- VSAW on a legal select (R190). -/
theorem vsawHandler_legal (p : Params) (x : CoreIn) (h : selLegal x.sel = true) :
    vsawHandler p x =
      { dOut := lanewise fun i => slice p.sawSliceMap x.acc[i] x.sel
        acc := x.acc, co := x.co, ne := x.ne, diag := none } := by
  unfold vsawHandler; rw [if_pos h]

/-- VSAW on an illegal select (R193, R194). -/
theorem vsawHandler_illegal (p : Params) (x : CoreIn) (h : selLegal x.sel = false) :
    vsawHandler p x =
      { dOut := illegalSawResult p.sawIllegal x.dIn
        acc := x.acc, co := x.co, ne := x.ne, diag := some { kind := .illegalSawElement, sel := x.sel } } := by
  unfold vsawHandler; rw [if_neg (by simp [h])]

/-- A select is illegal iff it is 3 to 7 (R192). -/
theorem selLegal_false_iff (sel : Sel) : selLegal sel = false ↔ 2 < sel.toNat := by
  simp [selLegal]

/-- What VSAW leaves alone, on either select (R190). -/
theorem vsawHandler_keeps (p : Params) (x : CoreIn) :
    (vsawHandler p x).acc = x.acc ∧ (vsawHandler p x).co = x.co ∧ (vsawHandler p x).ne = x.ne := by
  unfold vsawHandler; split <;> exact ⟨rfl, rfl, rfl⟩

/-- Every meaning answers a next state that is a write-back into its destination. -/
theorem exec_writes_back (i : Instr) (s : State) : ∃ o : CoreOut, exec i s = .next (writeBack s i.vd o) := by
  cases i <;> exact ⟨_, rfl⟩

/-- The next state of a meaning is a write-back into its destination. -/
theorem exec_next_writes_back {i : Instr} {s t : State} (h : exec i s = .next t) :
    ∃ o : CoreOut, t = writeBack s i.vd o := by
  obtain ⟨o, ho⟩ := exec_writes_back i s
  rw [ho] at h
  exact ⟨o, by injection h with h; exact h.symm⟩

/-- What a step that answers a next state did: nothing, one instruction, or a peer family's write. -/
theorem step_next_cases {s t : State} (h : step s = .next t) :
    (s.feed = [] ∧ t = s) ∨
    (∃ w rest i, s.feed = .word w :: rest ∧ decode w = .ok i ∧ exec i { s with feed := rest } = .next t) ∨
    (∃ p rest, s.feed = .peer p :: rest ∧ t = applyPeer p { s with feed := rest }) := by
  rcases hf : s.feed with _ | ⟨ev, rest⟩
  · left
    simp only [step, takeEvent, hf, idle] at h
    injection h with h
    exact ⟨rfl, h.symm⟩
  · right
    simp only [step, takeEvent, hf] at h
    cases ev with
    | word w =>
      simp only [applyEvent, invokeWord] at h
      split at h
      · next i hi => exact .inl ⟨w, rest, i, rfl, hi, h⟩
      · cases h
    | peer p =>
      simp only [applyEvent] at h
      injection h with h
      exact .inr ⟨p, rest, rfl, h.symm⟩

/-- A step, by what is waiting. -/
theorem step_eq (s : State) :
    step s = match s.feed with
      | [] => .next s
      | ev :: rest => applyEvent ev { s with feed := rest } := by
  unfold step takeEvent; cases s.feed <;> rfl

/-- One step, then the rest of a run. -/
theorem runFor_succ (n : Nat) (s : State) :
    runFor (n + 1) s = match step s with
      | .next t => runFor n t
      | .fault r => .fault r
      | .refused r => .refused r := rfl

/-- One step, then the rest of a run, for any machine of the host's interface. -/
theorem host_run_succ (M : Host.Core) (n : Nat) (s : M.State) :
    M.run (n + 1) s = match M.step s with
      | .next t => M.run n t
      | .fault r => .fault r
      | .refused r => .refused r := rfl

/-- The host's run of the core is the run claims are stated in. -/
theorem core_run_eq_runFor (n : Nat) (s : State) : Sys2Proof.core.run n s = runFor n s := by
  induction n generalizing s with
  | zero => rfl
  | succ n ih =>
    refine (host_run_succ Sys2Proof.core n s).trans ?_
    have hs : Sys2Proof.core.step s = step s := rfl
    rw [runFor_succ, hs]
    cases step s with
    | next t => exact ih t
    | fault r => rfl
    | refused r => rfl

end Sys2Proof.Machine
end

