-- ==== Sys2Proof/Tests/Slice0.lean ====
section
/-! SUPPORT. Small tests, their expected values taken from spec 95_test_vectors.md and the worked examples of the rules,
and for every statement that has hypotheses a concrete case that meets them. -/

namespace Sys2Proof.Tests

open Sys2Proof.Machine

/-! ### Well-formedness: one ill-formed line per check (30_encoding.md R83) -/

theorem test_wf_line : AsmLine.wellFormed { op := .vadd, vd := 31, vs := 31, vt := 31, e := some 15 } = true := by decide
theorem test_wf_refuses_vd : AsmLine.wellFormed { op := .vadd, vd := 32, vs := 1, vt := 2, e := none } = false := by decide
theorem test_wf_refuses_vs : AsmLine.wellFormed { op := .vadd, vd := 3, vs := 32, vt := 2, e := none } = false := by decide
theorem test_wf_refuses_vt : AsmLine.wellFormed { op := .vadd, vd := 3, vs := 1, vt := 32, e := none } = false := by decide
theorem test_wf_refuses_e : AsmLine.wellFormed { op := .vadd, vd := 3, vs := 1, vt := 2, e := some 16 } = false := by decide

/-! ### Decoding: words written out bit by bit from R71 and R73; the values are those of 95 section 2.1 and section 3 -/

theorem test_decode_vadd : decode 0b01001011000000100000100011010000#32 = .ok (.vadd 3 1 2 8) := by decide
theorem test_decode_vsub : decode 0b01001010000001000001100110010001#32 = .ok (.vsub 6 3 4 0) := by decide
theorem test_decode_vabs : decode 0b01001011000001000001100010010011#32 = .ok (.vabs 2 3 4 8) := by decide
theorem test_decode_vaddc : decode 0b01001010010001000010000100010100#32 = .ok (.vaddc 4 4 4 2) := by decide
theorem test_decode_vsubc : decode 0b01001011111111111111111111010101#32 = .ok (.vsubc 31 31 31 15) := by decide
theorem test_decode_vsaw : decode 0b01001010011000000000001001011101#32 = .ok (.vsaw 9 0 0 3) := by decide
theorem test_decode_refuses_funct : decode 0x4A000012#32 = .error .notCoreFunct := by decide
theorem test_decode_refuses_move : decode 0x48000010#32 = .error .notCoreInstruction := by decide
theorem test_decode_table_word : decodeTableWord 32 0x4A0001DD = some (.vsaw 7 0 0 0) := by decide
theorem test_encode_example : encode (.vadd 3 1 2 8) = 0x4B0208D0#32 := by decide
theorem test_encode_vsaw : encode (.vsaw 9 0 0 3) = 0x4A60025D#32 := by decide
theorem test_render_example :
    AsmLine.render { op := .vadd, vd := 3, vs := 1, vt := 2, e := some 8 } = "vadd $v3, $v1, $v2[8]" := by decide
theorem test_render_omitted :
    AsmLine.render { op := .vaddc, vd := 31, vs := 0, vt := 10, e := none } = "vaddc $v31, $v0, $v10" := by decide

/-! ### One instruction on a small state -/

/-- Every lane of `VR[1]` is `a`, of `VR[2]` is `b`, of every other register 0x5555; every accumulator lane is
0x123456789ABC; the flags are given. -/
def laneState (p : Params) (a b : Lane) (co ne : Bool) : State :=
  State.initial p
    { vr := ((Vector.replicate 32 (Vector.replicate 8 0x5555#16)).set 1 (Vector.replicate 8 a)).set 2
        (Vector.replicate 8 b)
      acc := Vector.replicate 8 0x123456789ABC#48
      co := Vector.replicate 8 co
      ne := Vector.replicate 8 ne }

/-- What a step left in register `r`, the accumulator, and the flags of lane 5, and in the log. -/
def lane5 (r : VReg) (o : Host.Outcome State Fault Refusal) : Option (Lane × AccLane × Bool × Bool × List Diag) :=
  match o with
  | .next t => some ((readVr t r)[5], t.acc[5], t.co[5], t.ne[5], t.diag)
  | .fault _ => none
  | .refused _ => none

/-- 95 section 2.3, largest sum. -/
theorem test_vadd_saturates : lane5 3 (exec (.vadd 3 1 2 0) (laneState .default 0x7FFF 0x7FFF true true)) =
    some (0x7FFF, 0x12345678FFFF, false, false, []) := by decide
/-- 95 section 2.3, the carry brings -32769 back into range. -/
theorem test_vadd_carry_back_in_range : lane5 3 (exec (.vadd 3 1 2 0) (laneState .default 0xC000 0xBFFF true true)) =
    some (0x8000, 0x123456788000, false, false, []) := by decide
/-- 95 section 2.4, the marked row under EXACT. -/
theorem test_vsub_exact : lane5 3 (exec (.vsub 3 1 2 0) (laneState .default 0x0001 0x8000 true true)) =
    some (0x7FFF, 0x123456788000, false, false, []) := by decide
/-- 95 section 2.4, the same row under EDGE_ONLY. -/
theorem test_vsub_edge_only :
    lane5 3 (exec (.vsub 3 1 2 0) (laneState { Params.default with subPolicy := .edgeOnly } 0x0001 0x8000 true true)) =
    some (0x7FFE, 0x123456788000, false, false, []) := by decide
/-- 95 section 2.5. -/
theorem test_vaddc_carry : lane5 3 (exec (.vaddc 3 1 2 0) (laneState .default 0x1234 0xEDCC false true)) =
    some (0x0000, 0x123456780000, true, false, []) := by decide
/-- 90_conflicts.md C1: signed overflow is no carry, and the old carry is not added. -/
theorem test_vaddc_signed_overflow : lane5 3 (exec (.vaddc 3 1 2 0) (laneState .default 0x7FFF 0x0001 true true)) =
    some (0x8000, 0x123456788000, false, false, []) := by decide
/-- 95 section 2.6: the borrow is unsigned. -/
theorem test_vsubc_borrow : lane5 3 (exec (.vsubc 3 1 2 0) (laneState .default 0x7FFF 0x8000 false false)) =
    some (0xFFFF, 0x12345678FFFF, true, true, []) := by decide
/-- 95 section 2.6: inequality without borrow. -/
theorem test_vsubc_unequal : lane5 3 (exec (.vsubc 3 1 2 0) (laneState .default 0xFFFF 0x0000 true false)) =
    some (0xFFFF, 0x12345678FFFF, false, true, []) := by decide
/-- 95 section 2.7: the corner case, flags kept. -/
theorem test_vabs_corner : lane5 3 (exec (.vabs 3 1 2 0) (laneState .default 0xFFFF 0x8000 true false)) =
    some (0x7FFF, 0x123456787FFF, true, false, []) := by decide
/-- 95 section 2.7: no correction for a positive sign. -/
theorem test_vabs_positive_sign : lane5 3 (exec (.vabs 3 1 2 0) (laneState .default 0x7FFF 0x8000 true false)) =
    some (0x8000, 0x123456788000, true, false, []) := by decide
/-- 95 section 2.8: select 1 is the mid slice; 3..7 keeps the destination and logs. -/
theorem test_vsaw_mid : lane5 7 (exec (.vsaw 7 0 0 9) (laneState .default 0 0 true false)) =
    some (0x5678, 0x123456789ABC, true, false, []) := by decide
theorem test_vsaw_illegal : lane5 7 (exec (.vsaw 7 0 0 3) (laneState .default 0 0 true false)) =
    some (0x5555, 0x123456789ABC, true, false, [{ kind := .illegalSawElement, sel := 3 }]) := by decide

/-- 95 section 2.2, the quarter broadcast e = 3. -/
theorem test_bcast_quarter :
    bcast #v[0x0A00, 0x0A01, 0x0A02, 0x0A03, 0x0A04, 0x0A05, 0x0A06, 0x0A07] 3 =
      #v[0x0A01, 0x0A01, 0x0A03, 0x0A03, 0x0A05, 0x0A05, 0x0A07, 0x0A07] := by decide
/-- 10_state.md R23: lane 0 is the most significant halfword. -/
theorem test_lane_zero_is_most_significant : vecBits #v[0x0001, 0, 0, 0, 0, 0, 0, 0x0002] = 0x00010000000000000000000000000002#128 := by
  decide
/-- Reset runs a word handed to it. -/
theorem test_reset_runs_a_word :
    (match step (State.reset.withFetchWord 32 0x4A0208D0) with
     | .next t => decide (t.feed = [] ∧ t.co = clearedFlags)
     | .fault _ => false
     | .refused _ => false) = true := by decide
/-- 70_reset_and_hazards.md R241, and a reset that is not it (R240). -/
theorem test_clean_entry :
    CleanEntry { State.reset with acc := Vector.replicate 8 0, co := clearedFlags, ne := clearedFlags } ∧
      ¬ CleanEntry State.reset := by decide

/-! ### Witnesses: for each statement with hypotheses, a case that meets them -/

theorem witness_EncodeOfDecodeIsTheWord : decode 0x4BFFFFD5#32 = .ok (.vsubc 31 31 31 15) := by decide
theorem witness_WordIsInstructionIffMaskedWordMatches :
    decode 0x4A0208D0#32 = .ok (.vadd 3 1 2 0) ∧ 0x4A0208D0#32 &&& 0xFE00003F#32 = 0x4A000010#32 := by decide
theorem witness_DecodingFollowsItsPseudocode :
    decode 0x4BFFFFDD#32 = .ok (.vsaw 31 31 31 15) ∧ decode 0x4A000016#32 = .error .notCoreFunct ∧
      decode 0x49FFFFFF#32 = .error .notCoreInstruction := by decide
theorem witness_AssemblerLineRoundTrip_omitted :
    AsmLine.assemble { op := .vsaw, vd := 7, vs := 0, vt := 0, e := none } = some (.vsaw 7 0 0 0) := by decide
theorem witness_AssemblerLineRoundTrip_illFormed :
    AsmLine.assemble { op := .vsaw, vd := 32, vs := 0, vt := 0, e := none } = none ∧
    AsmLine.assemble { op := .vsaw, vd := 0, vs := 32, vt := 0, e := none } = none ∧
    AsmLine.assemble { op := .vsaw, vd := 0, vs := 0, vt := 32, e := none } = none ∧
    AsmLine.assemble { op := .vsaw, vd := 0, vs := 0, vt := 0, e := some 16 } = none := by decide
theorem witness_SawSelectOfElementField :
    sawSel .xor8 8 = 0 ∧ sawSel .xor8 10 = 2 ∧ sawSel .xor8 7 = 7 ∧ sawSel .xor8 11 = 7 ∧ sawSel .low3 11 = 3 := by decide
theorem witness_SaturatingAddIsTheClampedExactSum :
    signedClampAdd 0x7FFF 0x0000 true = 0x7FFF ∧ (0x7FFF#16).toInt + (0x0000#16).toInt + 1 = 32768 ∧
    signedClampAdd 0x8000 0xFFFF false = 0x8000 ∧ (0x8000#16).toInt + (0xFFFF#16).toInt = -32769 := by decide
theorem witness_AddProcedureAgreesUnlessFirstStepWraps :
    clamp16 (s16 (trunc16 (32767 + 1)) + 32767) = 0xFFFF ∧ signedClampAdd 0x7FFF 0x7FFF true = 0x7FFF := by decide
theorem witness_SubtractPoliciesDifferExactlyOnLargeDifferencesWithBorrow :
    (0x0001#16).toInt - (0x8000#16).toInt = 32769 ∧ signedClampSub .exact 0x0001 0x8000 true = 0x7FFF ∧
    signedClampSub .edgeOnly 0x0001 0x8000 true = 0x7FFE ∧ signedClampSub .edgeOnly 0x0000 0x8000 true = 0x7FFF := by
  decide
theorem witness_SuppressedBorrowProcedureIsTheExactPolicy :
    (0x0000#16).toInt - (0x8000#16).toInt = 32768 ∧ clamp16 (s16 (clamp16 32768) - 1) = 0x7FFE ∧
    signedClampSub .exact 0x0000 0x8000 true = 0x7FFF := by decide
theorem witness_AbsoluteValueTruthTable :
    abs16 0x0001 0x1234 = 0x1234 ∧ abs16 0x0000 0x1234 = 0x0000 ∧ abs16 0xFFFF 0x1234 = 0xEDCC ∧
    abs16 0xFFFF 0x8000 = 0x7FFF := by decide
theorem witness_VaddAddsWithCarryInAndClearsFlags :
    (readVr (laneState .default 1 2 true true) 1)[0] = 1 ∧ (bcast (readVr (laneState .default 1 2 true true) 2) 8)[0] = 2 ∧
    (laneState .default 1 2 true true).co[0] = true ∧ (0#5 : VReg) ≠ 3 := by decide
theorem witness_VsubSubtractsWithBorrowInAndClearsFlags :
    (readVr (laneState { Params.default with subPolicy := .edgeOnly } 1 2 true true) 1)[7] = 1 ∧
    (bcast (readVr (laneState .default 1 2 true true) 2) 15)[7] = 2 ∧ (31#5 : VReg) ≠ 3 := by decide
theorem witness_VaddcWrapsAndSetsCarry :
    (readVr (laneState .default 0xFFFF 1 false true) 1)[0] = 0xFFFF ∧ (bcast (readVr (laneState .default 0xFFFF 1 false true) 2) 0)[0] = 1 := by
  decide
theorem witness_VsubcWrapsAndSetsBorrowAndInequality :
    (readVr (laneState .default 3 5 false true) 1)[0] = 3 ∧ (bcast (readVr (laneState .default 3 5 false true) 2) 2)[0] = 5 := by
  decide
theorem witness_VabsNegatesBySignAndKeepsFlags :
    (readVr (laneState .default 0xFFFF 0x8000 true false) 1)[0] = 0xFFFF ∧
    (bcast (readVr (laneState .default 0xFFFF 0x8000 true false) 2) 4)[0] = 0x8000 := by decide
theorem witness_VsawReadsASliceOrFallsBackAndLogs_doc :
    (sawSel (laneState .default 0 0 true false).params.sawDecode 2).toNat ≤ 2 ∧
    lane5 7 (exec (.vsaw 7 0 0 0) (laneState .default 0 0 true false)) = some (0x9ABC, 0x123456789ABC, true, false, []) ∧
    lane5 7 (exec (.vsaw 7 0 0 2) (laneState .default 0 0 true false)) = some (0x1234, 0x123456789ABC, true, false, []) :=
  ⟨by decide, by decide, by decide⟩
theorem witness_VsawReadsASliceOrFallsBackAndLogs_reversed :
    lane5 7 (exec (.vsaw 7 0 0 8) (laneState { Params.default with sawDecode := .xor8, sawSliceMap := .reversed } 0 0 true false)) =
      some (0x1234, 0x123456789ABC, true, false, []) ∧
    lane5 7 (exec (.vsaw 7 0 0 10) (laneState { Params.default with sawDecode := .xor8, sawSliceMap := .reversed } 0 0 true false)) =
      some (0x9ABC, 0x123456789ABC, true, false, []) := ⟨by decide, by decide⟩
theorem witness_VsawReadsASliceOrFallsBackAndLogs_illegal :
    2 < (sawSel (laneState .default 0 0 true false).params.sawDecode 3).toNat ∧
    lane5 7 (exec (.vsaw 7 0 0 7) (laneState { Params.default with sawIllegal := .zero } 0 0 true false)) =
      some (0x0000, 0x123456789ABC, true, false, [{ kind := .illegalSawElement, sel := 7 }]) := by decide
theorem witness_CopyIntoAnyRegisterReadsBack :
    readVr (laneState .default 0x1234 0 true true) 1 = Vector.replicate 8 0x1234 ∧
    readVr (laneState .default 0x1234 0 true true) 2 = Vector.replicate 8 0 ∧
    lane5 0 (exec (.vaddc 0 1 2 0) (laneState .default 0x1234 0 true true)) =
      some (0x1234, 0x123456781234, false, false, []) := by decide

/-- Two transactions that agree in lane 5 and nowhere else. -/
def inputs (z : Lane) (sel : Sel) : CoreIn :=
  { dIn := (Vector.replicate 8 z).set 5 7, sIn := (Vector.replicate 8 z).set 5 8, tIn := (Vector.replicate 8 z).set 5 9
    sel := sel, acc := (Vector.replicate 8 (BitVec.setWidth 48 z)).set 5 10
    co := (Vector.replicate 8 (z == 0)).set 5 true, ne := (Vector.replicate 8 (z == 0)).set 5 true }

theorem witness_CarryClearingHandlersFollowTheirContract :
    (Op.vadd = .vadd ∨ Op.vadd = .vsub) ∧ (Instr.vsub 3 1 2 0).op = .vsub ∧ (inputs 0 3).co[5] = true := by decide
theorem witness_CarrySettingHandlersFollowTheirContract :
    (Op.vaddc = .vaddc ∨ Op.vaddc = .vsubc) ∧ 65535 < (0xFFFF#16).toNat + (0x0001#16).toNat ∧
    (0x7FFF#16).toNat < (0x8000#16).toNat := by decide
theorem witness_HandlerLanesAreIndependent :
    (inputs 0 3).sIn[5] = (inputs 1 3).sIn[5] ∧ (inputs 0 3).tIn[5] = (inputs 1 3).tIn[5] ∧
    (inputs 0 3).dIn[5] = (inputs 1 3).dIn[5] ∧ (inputs 0 3).acc[5] = (inputs 1 3).acc[5] ∧
    (inputs 0 3).co[5] = (inputs 1 3).co[5] ∧ (inputs 0 3).ne[5] = (inputs 1 3).ne[5] ∧ inputs 0 3 ≠ inputs 1 3 := by decide
theorem witness_StaleFlagsNeverLeak :
    (Instr.vaddc 3 1 2 0).op = .vaddc ∧ (Instr.vsubc 3 1 2 0).op = .vsubc ∧ (Instr.vsub 3 1 2 0).op = .vsub := by decide
theorem witness_CarryIsConsumedOnce :
    ∃ t, exec (.vsub 3 1 2 0) (laneState .default 5 3 true true) = .next t := ⟨_, rfl⟩
theorem witness_AccumulatorReadSeesTheWriteBeforeIt :
    State.reset.params.sawSliceMap = .doc ∧ sawSel State.reset.params.sawDecode 0 = 0 ∧
    sawSel State.reset.params.sawDecode 8 = 0 := by decide
theorem witness_CarryChainAddsThirtyTwoBitLanes :
    (5#5 : VReg) ≠ 3 ∧ (5#5 : VReg) ≠ 4 ∧ (5#5 : VReg) ≠ 6 ∧
    (0x7FFFFFFE#32).toInt + (0x00000001#32).toInt = 2147483647 := by decide
theorem witness_BorrowChainSubtractsThirtyTwoBitLanes :
    (5#5 : VReg) ≠ 3 ∧ (5#5 : VReg) ≠ 4 ∧ (5#5 : VReg) ≠ 6 ∧ State.reset.params.subPolicy = .exact ∧
    (0x80000001#32).toInt - (0x00000001#32).toInt = -2147483648 := by decide
theorem witness_BorrowImpliesInequality :
    lane5 3 (exec (.vsubc 3 1 2 0) (laneState .default 0 1 false false)) = some (0xFFFF, 0x12345678FFFF, true, true, []) ∧
    (readVr (laneState .default 4 4 true true) 1)[5] = (bcast (readVr (laneState .default 4 4 true true) 2) 0)[5] := by decide
theorem witness_LogIsAppendOnlyAndNeverRead :
    (∃ t, exec (.vsaw 7 0 0 3) State.reset = .next t) ∧ (Instr.vsaw 7 0 0 3).op = .vsaw ∧
    2 < (sawSel State.reset.params.sawDecode (Instr.vsaw 7 0 0 3).e).toNat := ⟨⟨_, rfl⟩, by decide, by decide⟩

/-- A state under XOR8 whose log holds a record and whose next event is the word given. -/
def logged (w : Word) : State :=
  { laneState { Params.default with sawDecode := .xor8 } 1 2 true true with
    diag := [{ kind := .illegalSawElement, sel := 7 }], feed := [.word w] }

theorem witness_InstructionWordIsOneCoreTransaction :
    (logged 0x4A0001DD#32).feed = .word 0x4A0001DD#32 :: [] ∧ decode 0x4A0001DD#32 = .ok (.vsaw 7 0 0 0) ∧
    decode 0x4A0208D0#32 = .ok (.vadd 3 1 2 0) ∧ decode 0x4A000012#32 = .error .notCoreFunct ∧
    (inputs 0 3).sel = 3 := by decide
theorem witness_StepKeepsDiagnosticInvariant :
    DiagInv (logged 0x4A0001DD#32) ∧ ∃ t, step (logged 0x4A0001DD#32) = .next t := ⟨by decide, _, rfl⟩
theorem witness_StepRunsTheDecodedInstruction :
    (logged 0x4A0208D4#32).feed = .word 0x4A0208D4#32 :: [] ∧ decode 0x4A0208D4#32 = .ok (.vaddc 3 1 2 0) := by decide
theorem witness_ForeignWordIsRefusedByName :
    (∀ o ∈ [Op.vadd, .vsub, .vabs, .vaddc, .vsubc, .vsaw],
      0x4A000012#32 &&& 0xFE00003F#32 ≠ Op.matchValue o ∧ 0x48000010#32 &&& 0xFE00003F#32 ≠ Op.matchValue o) ∧
    step (logged 0x4A000012#32) = .refused (.notCoreFunct 0x4A000012#32) ∧
    step (logged 0x48000010#32) = .refused (.notCoreInstruction 0x48000010#32) := ⟨by decide, rfl, rfl⟩
theorem witness_StepWithoutEventChangesNothing : State.reset.feed = [] := by decide

/-- A peer family's write of one slice, the carries and one register. -/
def peerEvent : PeerWrite :=
  { accLo := none, accMd := some (Vector.replicate 8 0xBEEF), accHi := none, co := some clearedFlags, ne := none
    vr := some (4, Vector.replicate 8 0xCAFE) }

theorem witness_PeerWritesOnlyWhatItsEventCarries :
    (pushEvent State.reset (.peer peerEvent)).feed = .peer peerEvent :: [] ∧
    (∀ v, peerEvent.vr ≠ some (5, v)) ∧ peerEvent.vr = some (4, Vector.replicate 8 0xCAFE) :=
  ⟨rfl, by intro v h; injection h with h; injection h with h _; exact absurd h (by decide), rfl⟩
theorem witness_StepKeepsParameters : ∃ t, step (logged 0x4A0208D4#32) = .next t := ⟨_, rfl⟩
theorem witness_StepOfTheCoreKeepsUpperSlices :
    (∃ t, step (logged 0x4A0208D4#32) = .next t) ∧ ∀ p rest, (logged 0x4A0208D4#32).feed ≠ .peer p :: rest :=
  ⟨⟨_, rfl⟩, by intro p rest h; injection h with h _; injection h⟩
theorem witness_RunOfEncodedInstructionsIsTheirCompositionInOrder :
    (logged 0x4A0208D4#32).feed = [Instr.vaddc 3 1 2 0].map (fun i => Event.word (encode i)) ++ [] := by decide
theorem witness_CoreEventsRunToTheEnd :
    ∀ ev ∈ (pushEvent (pushEvent State.reset (.peer peerEvent)) (.word 0x4A0208D4#32)).feed, coreEvent ev = true := by
  decide
theorem witness_RunIsRefusedAtTheFirstForeignWord :
    (pushEvent (pushEvent State.reset (.word 0x00000000#32)) (.word 0x4A0208D4#32)).feed =
      [.word 0x4A0208D4#32] ++ .word 0x00000000#32 :: [] ∧
    (∀ ev ∈ [Event.word 0x4A0208D4#32], coreEvent ev = true) ∧ coreEvent (.word 0x00000000#32) = false ∧
    [Event.word 0x4A0208D4#32].length < 2 := by decide
theorem witness_InstancesShareNoState :
    ∃ next, stepInstance 1 [State.reset, logged 0x4A0208D4#32] = .next next := ⟨_, rfl⟩

end Sys2Proof.Tests
end

section
/-! SUPPORT. Instructions as core transactions, and where the diagnostic log stands in one (10_state.md rule R34). -/

namespace Sys2Proof.Machine

/-- The whole frame of R100: every instruction fetches its operands, runs its handler and writes the outputs back. -/
theorem exec_eq_writeBack_handler (i : Instr) (s : State) :
    exec i s = .next (writeBack s i.vd (handler s.params i.op (fetchOperands s i))) := by
  cases i <;> rfl

/-- The next state of an instruction is its handler's outputs, written back. -/
theorem eq_writeBack_handler_of_exec_next {i : Instr} {s t : State} (h : exec i s = .next t) :
    t = writeBack s i.vd (handler s.params i.op (fetchOperands s i)) := by
  rw [exec_eq_writeBack_handler] at h
  injection h with h
  exact h.symm

/-- The operand fetch does not see the log. -/
@[simp] theorem fetchOperands_withDiag (s : State) (d : List Diag) (i : Instr) :
    fetchOperands { s with diag := d } i = fetchOperands s i := by
  cases i <;> rfl

/-- A write-back uses the log only to append to it. -/
theorem writeBack_withDiag (s : State) (d : List Diag) (r : VReg) (o : CoreOut) :
    writeBack { s with diag := d } r o = { writeBack s r o with diag := d ++ o.diag.toList } := rfl

/-- VSAW is the instruction whose select comes from the element field (R78). -/
theorem fetchOperands_sel_of_vsaw {i : Instr} (h : i.op = .vsaw) (s : State) :
    (fetchOperands s i).sel = sawSel s.params.sawDecode i.e := by
  simp [fetchOperands, h]

/-- VSAW emits a record exactly on an illegal select (R194). -/
theorem vsawHandler_diag_ne_none_iff (p : Params) (x : CoreIn) :
    (vsawHandler p x).diag ≠ none ↔ 2 < x.sel.toNat := by
  rw [← selLegal_false_iff]
  cases h : selLegal x.sel with
  | true => simp [vsawHandler_legal p x h]
  | false => simp [vsawHandler_illegal p x h]

/-- No other handler emits a record (R34). -/
theorem handler_diag_of_ne_vsaw (p : Params) {op : Op} (h : op ≠ .vsaw) (x : CoreIn) :
    (handler p op x).diag = none := by
  cases op with
  | vsaw => exact absurd rfl h
  | vadd | vsub | vabs | vaddc | vsubc => rfl

/-- A handler emits a record exactly for VSAW with an illegal select. -/
theorem handler_diag_ne_none_iff (p : Params) (op : Op) (x : CoreIn) :
    (handler p op x).diag ≠ none ↔ op = .vsaw ∧ 2 < x.sel.toNat := by
  by_cases h : op = .vsaw
  · subst h
    exact (vsawHandler_diag_ne_none_iff p x).trans (by simp)
  · simp [h, handler_diag_of_ne_vsaw p h x]

/-- Settles O39. The records appended are those the handler returns, and neither the fetch nor the handler sees the
log. -/
theorem logIsAppendOnlyAndNeverRead : Obligations.LogIsAppendOnlyAndNeverRead := by
  intro i s t d h
  obtain rfl := eq_writeBack_handler_of_exec_next h
  refine ⟨_, writeBack_diag s i.vd _, ?_, Option.length_toList_le, ?_⟩
  · rw [Ne, Option.toList_eq_nil_iff, ← Ne, handler_diag_ne_none_iff]
    exact and_congr_right fun hop => by rw [fetchOperands_sel_of_vsaw hop]
  · rw [exec_eq_writeBack_handler, fetchOperands_withDiag, writeBack_withDiag]

end Sys2Proof.Machine
end

section
/-! SUPPORT. The primitives over one lane (40_primitives.md): what the narrowings `trunc16` and `clamp16` of R10 do to an
integer, and the statements about the saturating add, the accumulator values, the carries and the wrapped results. -/

namespace Sys2Proof.Machine

/-! ### `trunc16` respects sums and differences and undoes both readings of a lane -/

@[simp] theorem trunc16_s16 (a : Lane) : trunc16 (s16 a) = a := BitVec.ofInt_toInt

@[simp] theorem trunc16_u16 (a : Lane) : trunc16 (u16 a) = a := by
  simp [trunc16, BitVec.ofInt_natCast]

@[simp] theorem trunc16_carryInt (c : Bool) : trunc16 (carryInt c) = BitVec.setWidth 16 (BitVec.ofBool c) := by
  cases c <;> rfl

theorem trunc16_add (m n : Int) : trunc16 (m + n) = trunc16 m + trunc16 n := BitVec.ofInt_add m n

theorem trunc16_sub (m n : Int) : trunc16 (m - n) = trunc16 m - trunc16 n := by
  rw [Int.sub_eq_add_neg, trunc16_add, BitVec.sub_eq_add_neg, trunc16, trunc16, BitVec.ofInt_neg]
  rfl

/-! ### `clamp16` below, above and inside the signed range -/

theorem clamp16_of_gt {n : Int} (h : 32767 < n) : clamp16 n = 0x7FFF := if_pos h

theorem clamp16_of_lt {n : Int} (h : n < -32768) : clamp16 n = 0x8000 :=
  (if_neg (by omega)).trans (if_pos h)

theorem clamp16_of_mem {n : Int} (hl : -32768 ≤ n) (hu : n ≤ 32767) : clamp16 n = trunc16 n :=
  (if_neg (by omega)).trans (if_neg (by omega))

theorem s16_trunc16_of_mem {n : Int} (hl : -32768 ≤ n) (hu : n ≤ 32767) : s16 (trunc16 n) = n :=
  BitVec.toInt_ofInt_eq_self (by decide) hl (Int.lt_add_one_of_le hu)

/-- The signed reading of a clamped integer is the nearest integer of the signed range. -/
theorem s16_clamp16 (n : Int) : s16 (clamp16 n) = max (-32768) (min 32767 n) := by
  rcases lt_or_ge 32767 n with hu | hu
  · rw [clamp16_of_gt hu, min_eq_left hu.le]
    decide
  · rw [min_eq_right hu]
    rcases lt_or_ge n (-32768) with hl | hl
    · rw [clamp16_of_lt hl, max_eq_left hl.le]
      decide
    · rw [clamp16_of_mem hl hu, s16_trunc16_of_mem hl hu, max_eq_right hl]

/-! ### Ranges of the readings -/

theorem s16_mem (a : Lane) : -32768 ≤ s16 a ∧ s16 a ≤ 32767 :=
  ⟨a.le_toInt, Int.le_of_lt_add_one a.toInt_lt⟩

theorem carryInt_mem (c : Bool) : 0 ≤ carryInt c ∧ carryInt c ≤ 1 := by
  cases c <;> decide

/-- The exact sum of two signed lanes and a carry needs 17 bits and no more. -/
theorem s16_add_add_carryInt_mem (a b : Lane) (c : Bool) :
    -65536 ≤ s16 a + s16 b + carryInt c ∧ s16 a + s16 b + carryInt c ≤ 65535 := by
  have ha := s16_mem a
  have hb := s16_mem b
  have hc := carryInt_mem c
  omega

/-- Settles O11: the sum is at most 17 bits wide, and `clamp16` pins it to the nearest bound. -/
theorem saturatingAddIsTheClampedExactSum : Obligations.SaturatingAddIsTheClampedExactSum := by
  intro a b c n
  obtain ⟨hl, hu⟩ := s16_add_add_carryInt_mem a b c
  exact ⟨s16_clamp16 n, hl, hu, clamp16_of_gt, clamp16_of_lt⟩

/-! ### The accumulator values -/

theorem accAdd_eq (a b : Lane) (c : Bool) : accAdd a b c = a + b + BitVec.setWidth 16 (BitVec.ofBool c) := by
  rw [accAdd, trunc16_add, trunc16_add, trunc16_s16, trunc16_s16, trunc16_carryInt]

theorem accSub_eq (a b : Lane) (c : Bool) : accSub a b c = a - b - BitVec.setWidth 16 (BitVec.ofBool c) := by
  rw [accSub, trunc16_sub, trunc16_sub, trunc16_s16, trunc16_s16, trunc16_carryInt]

/-- Settles O16: `trunc16` carries the exact sum and difference over to the 16-bit patterns. -/
theorem accumulatorValuesAreExactModuloTwoToSixteen : Obligations.AccumulatorValuesAreExactModuloTwoToSixteen :=
  fun a b c => ⟨accAdd_eq a b c, accSub_eq a b c⟩

/-! ### Carry, borrow, inequality and the wrapped results -/

theorem carry16_iff (a b : Lane) : carry16 a b = true ↔ 65535 < a.toNat + b.toNat := by
  rw [carry16, decide_eq_true_iff, u16, u16]
  omega

theorem borrow16_iff (a b : Lane) : borrow16 a b = true ↔ a.toNat < b.toNat := by
  rw [borrow16, decide_eq_true_iff, Int.ofNat_lt]

theorem notEq16_iff (a b : Lane) : notEq16 a b = true ↔ a ≠ b := decide_eq_true_iff

/-- In 17 bits the sum of two lanes does not wrap. -/
theorem toNat_setWidth_add_setWidth (a b : Lane) :
    (BitVec.setWidth 17 a + BitVec.setWidth 17 b).toNat = a.toNat + b.toNat := by
  have ha := a.isLt
  have hb := b.isLt
  rw [BitVec.toNat_add, BitVec.toNat_setWidth_of_le (by decide), BitVec.toNat_setWidth_of_le (by decide)]
  exact Nat.mod_eq_of_lt (by omega)

/-- The carry is the top bit of the 17-bit sum. -/
theorem carry16_eq_getLsbD (a b : Lane) :
    carry16 a b = (BitVec.setWidth 17 a + BitVec.setWidth 17 b).getLsbD 16 := by
  have htop := BitVec.msb_eq_getLsbD_last (BitVec.setWidth 17 a + BitVec.setWidth 17 b)
  rw [BitVec.msb_eq_decide, toNat_setWidth_add_setWidth] at htop
  rw [← htop, Bool.eq_iff_iff, carry16_iff, decide_eq_true_iff]
  omega

theorem wrapAdd_eq (a b : Lane) : wrapAdd a b = a + b := by
  rw [wrapAdd, trunc16_add, trunc16_u16, trunc16_u16]

theorem wrapSub_eq (a b : Lane) : wrapSub a b = a - b := by
  rw [wrapSub, trunc16_sub, trunc16_u16, trunc16_u16]

theorem trunc16_s16_add_s16 (a b : Lane) : trunc16 (s16 a + s16 b) = a + b := by
  rw [trunc16_add, trunc16_s16, trunc16_s16]

theorem trunc16_s16_sub_s16 (a b : Lane) : trunc16 (s16 a - s16 b) = a - b := by
  rw [trunc16_sub, trunc16_s16, trunc16_s16]

/-- Settles O17. The wrapped results agree because both readings of a lane narrow back to that lane. -/
theorem carryBorrowAndInequalityOfUnsignedLanes : Obligations.CarryBorrowAndInequalityOfUnsignedLanes :=
  fun a b => ⟨carry16_iff a b, carry16_eq_getLsbD a b, borrow16_iff a b, notEq16_iff a b, wrapAdd_eq a b, wrapSub_eq a b,
    (wrapAdd_eq a b).trans (trunc16_s16_add_s16 a b).symm, (wrapSub_eq a b).trans (trunc16_s16_sub_s16 a b).symm⟩

end Sys2Proof.Machine
end

section
/-! SUPPORT. VADD and VSUB (41_carry_clearing.md): what their two handlers return, lane by lane, and what the write-back
of a transaction without a diagnostic leaves alone (R100). -/

namespace Sys2Proof.Machine

/-! ### The outputs of the handlers -/

@[simp] theorem vaddHandler_dOut_get (x : CoreIn) (i : Nat) (h : i < 8) :
    (vaddHandler x).dOut[i] = signedClampAdd x.sIn[i] x.tIn[i] x.co[i] := lanewise_get _ i h

@[simp] theorem vaddHandler_acc_get (x : CoreIn) (i : Nat) (h : i < 8) :
    (vaddHandler x).acc[i] = withLo x.acc[i] (accAdd x.sIn[i] x.tIn[i] x.co[i]) := by
  rw [vaddHandler, writeLow_get, lanewise_get]
  rfl

@[simp] theorem vaddHandler_co (x : CoreIn) : (vaddHandler x).co = clearedFlags := rfl
@[simp] theorem vaddHandler_ne (x : CoreIn) : (vaddHandler x).ne = clearedFlags := rfl
@[simp] theorem vaddHandler_diag (x : CoreIn) : (vaddHandler x).diag = none := rfl

@[simp] theorem vsubHandler_dOut_get (p : SubPolicy) (x : CoreIn) (i : Nat) (h : i < 8) :
    (vsubHandler p x).dOut[i] = signedClampSub p x.sIn[i] x.tIn[i] x.co[i] := lanewise_get _ i h

@[simp] theorem vsubHandler_acc_get (p : SubPolicy) (x : CoreIn) (i : Nat) (h : i < 8) :
    (vsubHandler p x).acc[i] = withLo x.acc[i] (accSub x.sIn[i] x.tIn[i] x.co[i]) := by
  rw [vsubHandler, writeLow_get, lanewise_get]
  rfl

@[simp] theorem vsubHandler_co (p : SubPolicy) (x : CoreIn) : (vsubHandler p x).co = clearedFlags := rfl
@[simp] theorem vsubHandler_ne (p : SubPolicy) (x : CoreIn) : (vsubHandler p x).ne = clearedFlags := rfl
@[simp] theorem vsubHandler_diag (p : SubPolicy) (x : CoreIn) : (vsubHandler p x).diag = none := rfl

/-- Settles O19. The accumulator values are truncated exact results by definition, and no instruction lacks a next
state. -/
theorem carryClearingHandlersFollowTheirContract : Obligations.CarryClearingHandlersFollowTheirContract := by
  refine ⟨?_, fun i s _ => ⟨_, exec_eq_writeBack_handler i s⟩⟩
  rintro p op x (rfl | rfl) k _ rfl
  · simp [handler, accAdd, trunc16, carryInt]
  · simp [handler, accSub, trunc16, carryInt]

/-! ### The two instructions, written back -/

theorem exec_vadd (vd vs vt : VReg) (e : Elem) (s : State) :
    exec (.vadd vd vs vt e) s = .next (writeBack s vd (vaddHandler (fetchBroadcast s vd vs vt e))) := rfl

theorem exec_vsub (vd vs vt : VReg) (e : Elem) (s : State) :
    exec (.vsub vd vs vt e) s =
      .next (writeBack s vd (vsubHandler s.params.subPolicy (fetchBroadcast s vd vs vt e))) := rfl

/-- The frame of a write-back that logs nothing: the other registers, the log, the parameters and the feed. -/
theorem writeBack_frame_of_diag_eq_none (s : State) (vd : VReg) {o : CoreOut} (h : o.diag = none) :
    (∀ r, r ≠ vd → readVr (writeBack s vd o) r = readVr s r) ∧ (writeBack s vd o).diag = s.diag ∧
      (writeBack s vd o).params = s.params ∧ (writeBack s vd o).feed = s.feed :=
  ⟨fun r hr => readVr_writeBack_other s vd r o hr, by simp [h], rfl, rfl⟩

/-- Settles O22: the handler's outputs lane by lane, and the frame of their write-back. -/
theorem vaddAddsWithCarryInAndClearsFlags : Obligations.VaddAddsWithCarryInAndClearsFlags := by
  intro vd vs vt e s
  refine ⟨Laws.MaskMatch.vadd vd vs vt e, _, exec_vadd vd vs vt e s, ?_,
    writeBack_frame_of_diag_eq_none s vd (vaddHandler_diag _)⟩
  rintro i _ _ _ rfl rfl rfl
  simp

/-- Settles O23: as for VADD, under the policy of the state's parameters. -/
theorem vsubSubtractsWithBorrowInAndClearsFlags : Obligations.VsubSubtractsWithBorrowInAndClearsFlags := by
  intro vd vs vt e s
  refine ⟨Laws.MaskMatch.vsub vd vs vt e, _, exec_vsub vd vs vt e s, ?_,
    writeBack_frame_of_diag_eq_none s vd (vsubHandler_diag _ _)⟩
  rintro i _ _ _ rfl rfl rfl
  simp

end Sys2Proof.Machine
end

section
/-! SUPPORT. VADDC and VSUBC (42_carry_setting.md): what their two handlers return, lane by lane, that neither reads the
flags, and the two instructions written back. -/

namespace Sys2Proof.Machine

/-! ### The wrapped results over the signed readings -/

/-- Wrapping the unsigned sum wraps the signed one as well (R111). -/
theorem wrapAdd_eq_trunc16_s16 (a b : Lane) : wrapAdd a b = trunc16 (s16 a + s16 b) :=
  (wrapAdd_eq a b).trans (trunc16_s16_add_s16 a b).symm

theorem wrapSub_eq_trunc16_s16 (a b : Lane) : wrapSub a b = trunc16 (s16 a - s16 b) :=
  (wrapSub_eq a b).trans (trunc16_s16_sub_s16 a b).symm

/-! ### The outputs of the handlers -/

@[simp] theorem vaddcHandler_dOut_get (x : CoreIn) (i : Nat) (h : i < 8) :
    (vaddcHandler x).dOut[i] = wrapAdd x.sIn[i] x.tIn[i] := lanewise_get _ i h

@[simp] theorem vaddcHandler_acc (x : CoreIn) : (vaddcHandler x).acc = writeLow x.acc (vaddcHandler x).dOut := rfl

@[simp] theorem vaddcHandler_co_get (x : CoreIn) (i : Nat) (h : i < 8) :
    (vaddcHandler x).co[i] = carry16 x.sIn[i] x.tIn[i] := lanewise_get _ i h

@[simp] theorem vaddcHandler_ne (x : CoreIn) : (vaddcHandler x).ne = clearedFlags := rfl
@[simp] theorem vaddcHandler_diag (x : CoreIn) : (vaddcHandler x).diag = none := rfl

@[simp] theorem vsubcHandler_dOut_get (x : CoreIn) (i : Nat) (h : i < 8) :
    (vsubcHandler x).dOut[i] = wrapSub x.sIn[i] x.tIn[i] := lanewise_get _ i h

@[simp] theorem vsubcHandler_acc (x : CoreIn) : (vsubcHandler x).acc = writeLow x.acc (vsubcHandler x).dOut := rfl

@[simp] theorem vsubcHandler_co_get (x : CoreIn) (i : Nat) (h : i < 8) :
    (vsubcHandler x).co[i] = borrow16 x.sIn[i] x.tIn[i] := lanewise_get _ i h

@[simp] theorem vsubcHandler_ne_get (x : CoreIn) (i : Nat) (h : i < 8) :
    (vsubcHandler x).ne[i] = notEq16 x.sIn[i] x.tIn[i] := lanewise_get _ i h

@[simp] theorem vsubcHandler_diag (x : CoreIn) : (vsubcHandler x).diag = none := rfl

/-! ### Neither handler reads the flags -/

theorem vaddcHandler_withFlags (x : CoreIn) (co ne : FlagVec) :
    vaddcHandler { x with co := co, ne := ne } = vaddcHandler x := rfl

theorem vsubcHandler_withFlags (x : CoreIn) (co ne : FlagVec) :
    vsubcHandler { x with co := co, ne := ne } = vsubcHandler x := rfl

/-- Settles O20. The handlers wrap the unsigned results, which are the signed ones wrapped; the low slice is written with
the destination value. -/
theorem carrySettingHandlersFollowTheirContract : Obligations.CarrySettingHandlersFollowTheirContract := by
  rintro p op x (rfl | rfl)
  · refine ⟨fun k => ⟨fun _ => ⟨?_, ?_⟩, nofun, ?_⟩, vaddcHandler_withFlags x⟩
    · exact (vaddcHandler_dOut_get x k k.isLt).trans (wrapAdd_eq_trunc16_s16 _ _)
    · simp [handler, carry16_iff]
    · simp [handler]
  · refine ⟨fun k => ⟨nofun, fun _ => ⟨?_, ?_⟩, ?_⟩, vsubcHandler_withFlags x⟩
    · exact (vsubcHandler_dOut_get x k k.isLt).trans (wrapSub_eq_trunc16_s16 _ _)
    · simp [handler, borrow16_iff]
    · simp [handler]

/-! ### The two instructions, written back -/

theorem exec_vaddc (vd vs vt : VReg) (e : Elem) (s : State) :
    exec (.vaddc vd vs vt e) s = .next (writeBack s vd (vaddcHandler (fetchBroadcast s vd vs vt e))) := rfl

theorem exec_vsubc (vd vs vt : VReg) (e : Elem) (s : State) :
    exec (.vsubc vd vs vt e) s = .next (writeBack s vd (vsubcHandler (fetchBroadcast s vd vs vt e))) := rfl

/-- Settles O24: the handler's outputs lane by lane, and the frame of their write-back. -/
theorem vaddcWrapsAndSetsCarry : Obligations.VaddcWrapsAndSetsCarry := by
  intro vd vs vt e s
  refine ⟨Laws.MaskMatch.vaddc vd vs vt e, _, exec_vaddc vd vs vt e s, ?_,
    writeBack_frame_of_diag_eq_none s vd (vaddcHandler_diag _)⟩
  rintro i _ _ rfl rfl
  simp

/-- Settles O25: as for VADDC, with the inequality flags beside the borrows. -/
theorem vsubcWrapsAndSetsBorrowAndInequality : Obligations.VsubcWrapsAndSetsBorrowAndInequality := by
  intro vd vs vt e s
  refine ⟨Laws.MaskMatch.vsubc vd vs vt e, _, exec_vsubc vd vs vt e s, ?_,
    writeBack_frame_of_diag_eq_none s vd (vsubcHandler_diag _)⟩
  rintro i _ _ rfl rfl
  simp

end Sys2Proof.Machine
end

section
/-! SUPPORT. VABS (43_abs.md): the rows of the table of R170 and their form as a clamped product, what the handler
returns, lane by lane, and the instruction written back. -/

namespace Sys2Proof.Machine

/-! ### The rows of the table -/

theorem abs16_of_pos {s : Lane} (hs : 0 < s16 s) (t : Lane) : abs16 s t = t := if_pos hs

theorem abs16_of_zero {s : Lane} (hs : s16 s = 0) (t : Lane) : abs16 s t = 0x0000 :=
  (if_neg (by omega)).trans (if_pos hs)

/-- A negative sign source negates and saturates: the last two rows in one. -/
theorem abs16_of_neg {s : Lane} (hs : s16 s < 0) (t : Lane) :
    abs16 s t = if t = 0x8000 then 0x7FFF else trunc16 (-s16 t) :=
  (if_neg (by omega)).trans (if_neg (by omega))

/-! ### The clamped product -/

theorem clamp16_s16 (t : Lane) : clamp16 (s16 t) = t :=
  (clamp16_of_mem (s16_mem t).1 (s16_mem t).2).trans (trunc16_s16 t)

/-- Only the most negative lane has a negation outside the signed range. -/
theorem clamp16_neg_s16 (t : Lane) : clamp16 (-s16 t) = if t = 0x8000 then 0x7FFF else trunc16 (-s16 t) := by
  split
  next ht => subst ht; decide
  next ht =>
    have hmin : s16 t ≠ -32768 := fun h => ht (BitVec.eq_of_toInt_eq h)
    have hrange := s16_mem t
    exact clamp16_of_mem (by omega) (by omega)

theorem abs16_eq_clamp16_sign_mul (s t : Lane) : abs16 s t = clamp16 ((s16 s).sign * s16 t) := by
  rcases lt_trichotomy (s16 s) 0 with hs | hs | hs
  · rw [abs16_of_neg hs, Int.sign_eq_neg_one_of_neg hs, neg_one_mul, clamp16_neg_s16]
  · rw [abs16_of_zero hs, hs, Int.sign_zero, zero_mul]
    rfl
  · rw [abs16_of_pos hs, Int.sign_eq_one_of_pos hs, one_mul, clamp16_s16]

/-- Settles O18. The product saturates in the corner row alone, where `t` has no negation. -/
theorem absoluteValueTruthTable : Obligations.AbsoluteValueTruthTable :=
  fun s t => ⟨fun hs => abs16_of_pos hs t, fun hs => abs16_of_zero hs t,
    fun hs ht => (abs16_of_neg hs t).trans (if_neg ht), fun hs ht => (abs16_of_neg hs t).trans (if_pos ht),
    abs16_eq_clamp16_sign_mul s t⟩

/-! ### The outputs of the handler -/

@[simp] theorem vabsHandler_dOut_get (x : CoreIn) (i : Nat) (h : i < 8) :
    (vabsHandler x).dOut[i] = abs16 x.sIn[i] x.tIn[i] := lanewise_get _ i h

@[simp] theorem vabsHandler_acc (x : CoreIn) : (vabsHandler x).acc = writeLow x.acc (vabsHandler x).dOut := rfl

@[simp] theorem vabsHandler_co (x : CoreIn) : (vabsHandler x).co = x.co := rfl
@[simp] theorem vabsHandler_ne (x : CoreIn) : (vabsHandler x).ne = x.ne := rfl
@[simp] theorem vabsHandler_diag (x : CoreIn) : (vabsHandler x).diag = none := rfl

/-! ### The instruction, written back -/

theorem exec_vabs (vd vs vt : VReg) (e : Elem) (s : State) :
    exec (.vabs vd vs vt e) s = .next (writeBack s vd (vabsHandler (fetchBroadcast s vd vs vt e))) := rfl

/-- Settles O26: the handler's outputs lane by lane, the flags it passes through, and the frame of their write-back. -/
theorem vabsNegatesBySignAndKeepsFlags : Obligations.VabsNegatesBySignAndKeepsFlags := by
  intro vd vs vt e s
  refine ⟨Laws.MaskMatch.vabs vd vs vt e, _, exec_vabs vd vs vt e s, ?_, rfl, rfl,
    writeBack_frame_of_diag_eq_none s vd (vabsHandler_diag _)⟩
  rintro i _ _ rfl rfl
  simp

end Sys2Proof.Machine
end

section
/-! SUPPORT. VSAW (44_accumulator_read.md): the slice each legal select reads, what the handler returns on a legal and
on an illegal select, and the instruction written back. -/

namespace Sys2Proof.Machine

/-! ### The slice map (R191) -/

@[simp] theorem slice_doc_zero (a : AccLane) : slice .doc a 0#3 = a.extractLsb' 0 16 := rfl
@[simp] theorem slice_doc_one (a : AccLane) : slice .doc a 1#3 = a.extractLsb' 16 16 := rfl
@[simp] theorem slice_doc_two (a : AccLane) : slice .doc a 2#3 = a.extractLsb' 32 16 := rfl
@[simp] theorem slice_reversed_zero (a : AccLane) : slice .reversed a 0#3 = a.extractLsb' 32 16 := rfl
@[simp] theorem slice_reversed_one (a : AccLane) : slice .reversed a 1#3 = a.extractLsb' 16 16 := rfl
@[simp] theorem slice_reversed_two (a : AccLane) : slice .reversed a 2#3 = a.extractLsb' 0 16 := rfl

/-! ### The outputs of the handler, by the select (R192 to R194) -/

theorem selLegal_true_iff (sel : Sel) : selLegal sel = true ↔ sel.toNat ≤ 2 := decide_eq_true_iff

theorem vsawHandler_dOut_get_of_le (p : Params) {x : CoreIn} (h : x.sel.toNat ≤ 2) (i : Nat) (hi : i < 8) :
    (vsawHandler p x).dOut[i] = slice p.sawSliceMap x.acc[i] x.sel := by
  rw [vsawHandler_legal p x ((selLegal_true_iff _).2 h), lanewise_get]
  rfl

theorem vsawHandler_diag_of_le (p : Params) {x : CoreIn} (h : x.sel.toNat ≤ 2) : (vsawHandler p x).diag = none := by
  rw [vsawHandler_legal p x ((selLegal_true_iff _).2 h)]

theorem vsawHandler_dOut_of_lt (p : Params) {x : CoreIn} (h : 2 < x.sel.toNat) :
    (vsawHandler p x).dOut = illegalSawResult p.sawIllegal x.dIn := by
  rw [vsawHandler_illegal p x ((selLegal_false_iff _).2 h)]

theorem vsawHandler_diag_of_lt (p : Params) {x : CoreIn} (h : 2 < x.sel.toNat) :
    (vsawHandler p x).diag = some { kind := .illegalSawElement, sel := x.sel } := by
  rw [vsawHandler_illegal p x ((selLegal_false_iff _).2 h)]

@[simp] theorem illegalSawResult_unchanged (v : Vec) : illegalSawResult .unchanged v = v := rfl

@[simp] theorem illegalSawResult_zero_get (v : Vec) (i : Nat) (h : i < 8) : (illegalSawResult .zero v)[i] = 0 :=
  Vector.getElem_replicate h

/-! ### The instruction, written back -/

theorem exec_vsaw (vd vs vt : VReg) (e : Elem) (s : State) :
    exec (.vsaw vd vs vt e) s = .next (writeBack s vd (vsawHandler s.params (fetchSaw s vd vs vt e))) := rfl

/-- Settles O27. A legal select reads one slice of each lane and logs nothing, an illegal one falls back and logs
itself; the handler passes the accumulator and the flags through on both. -/
theorem vsawReadsASliceOrFallsBackAndLogs : Obligations.VsawReadsASliceOrFallsBackAndLogs := by
  intro vd vs vt e s sel hsel
  have hx : (fetchSaw s vd vs vt e).sel = sel := hsel.symm
  obtain ⟨hacc, hco, hne⟩ := vsawHandler_keeps s.params (fetchSaw s vd vs vt e)
  refine ⟨Laws.MaskMatch.vsaw vd vs vt e, _, exec_vsaw vd vs vt e s, fun i => ?_, fun hle => ?_, fun hlt => ?_,
    hacc, hco, hne, fun r hr => readVr_writeBack_other s vd r _ hr, rfl, rfl⟩
  · rw [readVr_writeBack_same]
    have hread (hle : sel.toNat ≤ 2) :
        (vsawHandler s.params (fetchSaw s vd vs vt e)).dOut[i] = slice s.params.sawSliceMap s.acc[i] sel :=
      hx ▸ vsawHandler_dOut_get_of_le s.params (hx ▸ hle) i i.isLt
    refine ⟨fun hmap => ?_, fun hmap => ?_, fun hlt => ?_⟩
    · refine ⟨?_, ?_, ?_⟩ <;> rintro rfl <;> simp [hread, hmap]
    · refine ⟨?_, ?_, ?_⟩ <;> rintro rfl <;> simp [hread, hmap]
    · rw [vsawHandler_dOut_of_lt s.params (hx ▸ hlt)]
      exact ⟨fun hp => by simp [hp], fun hp => by simp [hp]⟩
  · rw [writeBack_diag, vsawHandler_diag_of_le s.params (hx ▸ hle), Option.toList_none, List.append_nil]
  · rw [writeBack_diag, vsawHandler_diag_of_lt s.params (hx ▸ hlt), hx, Option.toList_some]

end Sys2Proof.Machine
end

section
/-! SUPPORT. Instruction words (30_encoding.md): decoding inverts encoding both ways (R71, R82), the mask and match rule
(R74), and the assembler lines (R83). -/

namespace Sys2Proof

/-! ### The three answers of the decoder (R82) -/

/-- The seven bits above the operand fields are those of format VC. -/
abbrev IsCoreFormat (w : Word) : Prop := fieldMajor w = 0b010010#6 ∧ fieldCoBit w = 1#1

theorem decode_of_not_isCoreFormat {w : Word} (h : ¬ IsCoreFormat w) : decode w = .error .notCoreInstruction :=
  if_pos (not_and_or.1 h)

theorem decode_of_ofFunct_eq_none {w : Word} (h : IsCoreFormat w) (hf : Op.ofFunct (fieldFunct w) = none) :
    decode w = .error .notCoreFunct := by
  rw [decode, if_neg (not_or.2 ⟨not_not.2 h.1, not_not.2 h.2⟩), hf]

theorem decode_of_ofFunct_eq_some {w : Word} {o : Op} (h : IsCoreFormat w) (hf : Op.ofFunct (fieldFunct w) = some o) :
    decode w = .ok (Instr.ofFields o (fieldVd w) (fieldVs w) (fieldVt w) (fieldE w)) := by
  rw [decode, if_neg (not_or.2 ⟨not_not.2 h.1, not_not.2 h.2⟩), hf]

/-- Which answer the decoder gives, and when. -/
theorem decode_cases (w : Word) :
    (¬ IsCoreFormat w ∧ decode w = .error .notCoreInstruction) ∨
    (IsCoreFormat w ∧ Op.ofFunct (fieldFunct w) = none ∧ decode w = .error .notCoreFunct) ∨
    (IsCoreFormat w ∧ ∃ o, Op.ofFunct (fieldFunct w) = some o ∧
      decode w = .ok (Instr.ofFields o (fieldVd w) (fieldVs w) (fieldVt w) (fieldE w))) := by
  by_cases h : IsCoreFormat w
  · cases hf : Op.ofFunct (fieldFunct w) with
    | none => exact .inr (.inl ⟨h, rfl, decode_of_ofFunct_eq_none h hf⟩)
    | some o => exact .inr (.inr ⟨h, o, rfl, decode_of_ofFunct_eq_some h hf⟩)
  · exact .inl ⟨h, decode_of_not_isCoreFormat h⟩

/-! ### Encoding and decoding are inverse -/

theorem isCoreFormat_encode (i : Instr) : IsCoreFormat (encode i) :=
  ⟨fieldMajor_encodeVC _ _ _ _ _, fieldCoBit_encodeVC _ _ _ _ _⟩

theorem decode_encode (i : Instr) : decode (encode i) = .ok i := by
  have hf : Op.ofFunct (fieldFunct (encode i)) = some i.op := by
    rw [encode, fieldFunct_encodeVC, ofFunct_funct]
  rw [decode_of_ofFunct_eq_some (isCoreFormat_encode i) hf, encode, fieldVd_encodeVC, fieldVs_encodeVC,
    fieldVt_encodeVC, fieldE_encodeVC, ofFields_self]

/-- A word of format VC is its own fields, laid out again: the fields are adjacent and cover all 32 bits. -/
theorem encodeVC_fields {w : Word} (h : IsCoreFormat w) :
    encodeVC (fieldFunct w) (fieldVd w) (fieldVs w) (fieldVt w) (fieldE w) = w := by
  obtain ⟨hmajor, hcoBit⟩ := h
  rw [encodeVC, ← hmajor, ← hcoBit, fieldMajor, fieldCoBit, fieldE, fieldVt, fieldVs, fieldVd, fieldFunct,
    BitVec.extractLsb'_append_extractLsb'_eq_extractLsb' (show 26 = 25 + 1 from rfl),
    BitVec.extractLsb'_append_extractLsb'_eq_extractLsb' (show 25 = 21 + 4 from rfl),
    BitVec.extractLsb'_append_extractLsb'_eq_extractLsb' (show 21 = 16 + 5 from rfl),
    BitVec.extractLsb'_append_extractLsb'_eq_extractLsb' (show 16 = 11 + 5 from rfl),
    BitVec.extractLsb'_append_extractLsb'_eq_extractLsb' (show 11 = 6 + 5 from rfl),
    BitVec.extractLsb'_append_extractLsb'_eq_extractLsb' (show 6 = 0 + 6 from rfl)]
  exact BitVec.extractLsb'_eq_self

theorem encode_ofFields (o : Op) (vd vs vt : VReg) (e : Elem) :
    encode (Instr.ofFields o vd vs vt e) = encodeVC o.funct vd vs vt e := by
  cases o <;> rfl

/-- Exactly one word decodes to an instruction: its encoding. -/
theorem decode_eq_ok_iff (w : Word) (i : Instr) : decode w = .ok i ↔ encode i = w := by
  refine ⟨fun h => ?_, fun h => h ▸ decode_encode i⟩
  rcases decode_cases w with ⟨-, hw⟩ | ⟨-, -, hw⟩ | ⟨hcore, o, hf, hw⟩
  · cases hw.symm.trans h
  · cases hw.symm.trans h
  · cases hw.symm.trans h
    rw [encode_ofFields, ← funct_of_ofFunct hf, encodeVC_fields hcore]

/-- Settles O4: the fields of an encoded word are the instruction's, and its function code names its opcode. -/
theorem decodeOfEncodeIsTheInstruction : Obligations.DecodeOfEncodeIsTheInstruction := decode_encode

/-- Settles O5: a word of format VC is its own fields laid out again. -/
theorem encodeOfDecodeIsTheWord : Obligations.EncodeOfDecodeIsTheWord :=
  fun w i => (decode_eq_ok_iff w i).1

/-! ### The mask and match rule (R74) -/

theorem encode_and_opcodeMask (i : Instr) : encode i &&& opcodeMask = i.op.matchValue :=
  (Laws.MaskMatch.masked_encodeVC _ _ _ _ _).trans (Laws.MaskMatch.bare_encodeVC i.op)

theorem matchValue_eq (o : Op) : o.matchValue = 0x4A000000#32 ||| BitVec.setWidth 32 o.funct := by
  cases o <;> rfl

/-- The mask keeps the bits the decoder tests: the head of the word and the function code. -/
theorem fields_of_and_opcodeMask {w v : Word} (h : w &&& opcodeMask = v) :
    fieldMajor w = fieldMajor v ∧ fieldCoBit w = fieldCoBit v ∧ fieldFunct w = fieldFunct v := by
  subst h
  simp only [fieldMajor, fieldCoBit, fieldFunct, BitVec.extractLsb'_and]
  exact ⟨BitVec.and_allOnes.symm, BitVec.and_allOnes.symm, BitVec.and_allOnes.symm⟩

/-- A word decodes to an instruction of an opcode exactly when its masked bits are that row's match value. -/
theorem exists_decode_op_iff (w : Word) (o : Op) :
    (∃ i, decode w = .ok i ∧ i.op = o) ↔ w &&& opcodeMask = o.matchValue := by
  constructor
  · rintro ⟨i, hi, rfl⟩
    rw [← (decode_eq_ok_iff w i).1 hi, encode_and_opcodeMask]
  · intro h
    obtain ⟨hmajor, hcoBit, hfunct⟩ := fields_of_and_opcodeMask (h.trans (Laws.MaskMatch.bare_encodeVC o).symm)
    rw [fieldMajor_encodeVC] at hmajor
    rw [fieldCoBit_encodeVC] at hcoBit
    rw [fieldFunct_encodeVC] at hfunct
    exact ⟨_, decode_of_ofFunct_eq_some ⟨hmajor, hcoBit⟩ (hfunct ▸ ofFunct_funct o), ofFields_op _ _ _ _ _⟩

/-- The appended fields of format VC, each shifted to its place. -/
theorem encodeVC_eq_or (f : BitVec 6) (vd vs vt : VReg) (e : Elem) :
    encodeVC f vd vs vt e =
      0x4A000000#32 ||| BitVec.setWidth 32 e <<< 21 ||| BitVec.setWidth 32 vt <<< 16 |||
        BitVec.setWidth 32 vs <<< 11 ||| BitVec.setWidth 32 vd <<< 6 ||| BitVec.setWidth 32 f := by
  rw [← BitVec.setWidth_eq (encodeVC f vd vs vt e), encodeVC]
  simp only [BitVec.setWidth_append_eq_shiftLeft_setWidth_or, BitVec.shiftLeft_or_distrib, ← BitVec.shiftLeft_add]
  rfl

/-- Settles O6. The match value is what the mask leaves of every encoding of the opcode. -/
theorem wordIsInstructionIffMaskedWordMatches : Obligations.WordIsInstructionIffMaskedWordMatches :=
  ⟨fun w o => matchValue_eq o ▸ exists_decode_op_iff w o, matchValue_eq, fun _ => encodeVC_eq_or _ _ _ _ _⟩

/-! ### The decoding pseudocode (R82) -/

theorem ofFunct_eq_none_iff (f : BitVec 6) :
    Op.ofFunct f = none ↔ f ∉ [0x10#6, 0x11#6, 0x13#6, 0x14#6, 0x15#6, 0x1D#6] := by
  revert f; decide

theorem decode_eq_notCoreInstruction_iff (w : Word) :
    decode w = .error .notCoreInstruction ↔ ¬ IsCoreFormat w := by
  rcases decode_cases w with ⟨hcore, hw⟩ | ⟨hcore, -, hw⟩ | ⟨hcore, o, -, hw⟩
  · exact iff_of_true hw hcore
  · exact iff_of_false (hw ▸ nofun) (not_not.2 hcore)
  · exact iff_of_false (hw ▸ nofun) (not_not.2 hcore)

theorem decode_eq_notCoreFunct_iff (w : Word) :
    decode w = .error .notCoreFunct ↔ IsCoreFormat w ∧ Op.ofFunct (fieldFunct w) = none := by
  rcases decode_cases w with ⟨hcore, hw⟩ | ⟨hcore, hf, hw⟩ | ⟨-, o, hf, hw⟩
  · exact iff_of_false (hw ▸ nofun) fun h => hcore h.1
  · exact iff_of_true hw ⟨hcore, hf⟩
  · exact iff_of_false (hw ▸ nofun) fun h => nomatch hf.symm.trans h.2

/-- Settles O7: the two refusals as `iff`s, and the fields of a word that is the encoding of what it decodes to. -/
theorem decodingFollowsItsPseudocode : Obligations.DecodingFollowsItsPseudocode := by
  refine fun w => ⟨?_, ?_, fun i hi => ?_⟩
  · rw [decode_eq_notCoreInstruction_iff, IsCoreFormat, not_and_or]
    rfl
  · rw [decode_eq_notCoreFunct_iff, ofFunct_eq_none_iff]
    rfl
  · obtain rfl := (decode_eq_ok_iff w i).1 hi
    exact ⟨(fieldFunct_encodeVC _ _ _ _ _).symm, (fieldE_encodeVC _ _ _ _ _).symm, (fieldVt_encodeVC _ _ _ _ _).symm,
      (fieldVs_encodeVC _ _ _ _ _).symm, (fieldVd_encodeVC _ _ _ _ _).symm⟩

/-- Settles O3, by running the decoder on the words. -/
theorem writtenOutWordsDecode : Obligations.WrittenOutWordsDecode := by
  unfold Obligations.WrittenOutWordsDecode
  decide

/-! ### Words that match no row (R80) -/

/-- The major field and the bit below it are the seven bits `w[31:25]`. -/
theorem isCoreFormat_iff (w : Word) : IsCoreFormat w ↔ w.extractLsb' 25 7 = 0b0100101#7 := by
  have hhead : fieldMajor w ++ fieldCoBit w = w.extractLsb' 25 7 :=
    BitVec.extractLsb'_append_extractLsb'_eq_extractLsb' rfl
  rw [← hhead]
  constructor
  · rintro ⟨hmajor, hcoBit⟩
    rw [hmajor, hcoBit]
    rfl
  · intro h
    exact ⟨BitVec.extractLsb'_append_eq_left.symm.trans (congrArg (BitVec.extractLsb' 1 6) h),
      BitVec.extractLsb'_append_eq_right.symm.trans (congrArg (BitVec.extractLsb' 0 1) h)⟩

/-- A word that matches no row decodes to no instruction, and its head says by which name it is refused. -/
theorem decode_of_matches_none {w : Word} (h : ∀ o : Op, w &&& opcodeMask ≠ o.matchValue) :
    decode w = .error (if IsCoreFormat w then .notCoreFunct else .notCoreInstruction) := by
  rcases decode_cases w with ⟨hcore, hw⟩ | ⟨hcore, -, hw⟩ | ⟨-, o, -, hw⟩
  · rw [hw, if_neg hcore]
  · rw [hw, if_pos hcore]
  · exact absurd ((exists_decode_op_iff w _).1 ⟨_, hw, rfl⟩) (h _)

/-! ### Assembler lines (R83) -/

theorem AsmLine.wellFormed_iff (l : AsmLine) :
    l.wellFormed = true ↔ l.vd < 32 ∧ l.vs < 32 ∧ l.vt < 32 ∧ asmElemOk l.e = true := by
  simp only [AsmLine.wellFormed, asmRegOk, Bool.and_eq_true, decide_eq_true_iff, and_assoc]

theorem Instr.toAsm_wellFormed (i : Instr) : i.toAsm.wellFormed = true :=
  i.toAsm.wellFormed_iff.2 ⟨i.vd.isLt, i.vs.isLt, i.vt.isLt, decide_eq_true i.e.isLt⟩

theorem Instr.assemble_toAsm (i : Instr) : i.toAsm.assemble = some i := by
  rw [AsmLine.assemble, if_pos i.toAsm_wellFormed]
  simp [Instr.toAsm]

/-- Leaving the element value out is writing 0: both lines pass the same checks. -/
theorem AsmLine.assemble_of_e_eq_none {l : AsmLine} (h : l.e = none) :
    l.assemble = AsmLine.assemble { l with e := some 0 } := by
  simp only [AsmLine.assemble, AsmLine.wellFormed, h, Option.getD]
  rfl

theorem AsmLine.assemble_of_not_wellFormed {l : AsmLine} (h : l.wellFormed = false) : l.assemble = none :=
  if_neg (by simp [h])

theorem AsmLine.wellFormed_eq_false {l : AsmLine}
    (h : 32 ≤ l.vd ∨ 32 ≤ l.vs ∨ 32 ≤ l.vt ∨ ∃ e, l.e = some e ∧ 16 ≤ e) : l.wellFormed = false := by
  refine Bool.eq_false_iff.2 fun hwf => ?_
  obtain ⟨hvd, hvs, hvt, he⟩ := l.wellFormed_iff.1 hwf
  rcases h with h | h | h | ⟨e, hle, h⟩
  · omega
  · omega
  · omega
  · rw [hle, asmElemOk, decide_eq_true_iff] at he
    omega

/-- Settles O8: the numbers of an instruction's line are in range, and a line with one out of range is ill formed. -/
theorem assemblerLineRoundTrip : Obligations.AssemblerLineRoundTrip :=
  ⟨fun i => ⟨i.toAsm_wellFormed, i.assemble_toAsm⟩, fun _ => AsmLine.assemble_of_e_eq_none,
    fun _ h => AsmLine.assemble_of_not_wellFormed (AsmLine.wellFormed_eq_false h), by decide⟩

end Sys2Proof
end

section
/-! SUPPORT. The source's saturating procedures and the two subtract policies (40_primitives.md sections 2 and 3): where
a narrowing in the middle of a procedure loses nothing, and what it loses elsewhere. -/

namespace Sys2Proof.Machine

/-! ### The saturating add, the smaller operand first (R105) -/

/-- Only both operands at the largest lane with carry 1 take the first step of the procedure out of the signed range. -/
theorem min_s16_add_carryInt_le {a b : Lane} {c : Bool} (h : ¬ (a = 0x7FFF ∧ b = 0x7FFF ∧ c = true)) :
    min (s16 a) (s16 b) + carryInt c ≤ 32767 := by
  have ha := (s16_mem a).2
  have hb := (s16_mem b).2
  have hc := (carryInt_mem c).2
  by_contra hgt
  have hmax : s16 a = 32767 ∧ s16 b = 32767 ∧ carryInt c = 1 := by omega
  obtain ⟨ha, hb, hc⟩ := hmax
  exact h ⟨BitVec.eq_of_toInt_eq ha, BitVec.eq_of_toInt_eq hb, by simpa [carryInt] using hc⟩

theorem le_min_s16_add_carryInt (a b : Lane) (c : Bool) : -32768 ≤ min (s16 a) (s16 b) + carryInt c := by
  have ha := (s16_mem a).1
  have hb := (s16_mem b).1
  have hc := (carryInt_mem c).1
  omega

theorem clamp16_min_add_max (a b : Lane) (c : Bool) :
    clamp16 (min (s16 a) (s16 b) + carryInt c + max (s16 a) (s16 b)) = signedClampAdd a b c := by
  rw [add_right_comm, min_add_max]
  rfl

/-- Settles O12. Away from the corner the first step is in range, so narrowing it in either way changes nothing; in the
corner clamping it is still right, and wrapping it is not. -/
theorem addProcedureAgreesUnlessFirstStepWraps : Obligations.AddProcedureAgreesUnlessFirstStepWraps := by
  intro a b c lo hi
  have hwide : clamp16 (lo + hi) = signedClampAdd a b c := clamp16_min_add_max a b c
  by_cases hcorner : a = 0x7FFF ∧ b = 0x7FFF ∧ c = true
  · refine ⟨?_, hwide, ?_⟩
    · obtain ⟨rfl, rfl, rfl⟩ := hcorner
      decide
    · refine iff_of_false ?_ (not_not.2 hcorner)
      obtain ⟨rfl, rfl, rfl⟩ := hcorner
      decide
  · have hl : -32768 ≤ lo := le_min_s16_add_carryInt a b c
    have hu : lo ≤ 32767 := min_s16_add_carryInt_le hcorner
    have hwrap : clamp16 (s16 (trunc16 lo) + hi) = signedClampAdd a b c := by rw [s16_trunc16_of_mem hl hu, hwide]
    exact ⟨by rw [clamp16_of_mem hl hu, hwrap], hwide, iff_of_true hwrap hcorner⟩

/-! ### The saturating subtract -/

/-- The exact difference of two signed lanes and a borrow needs 17 bits and no more. -/
theorem s16_sub_sub_carryInt_mem (a b : Lane) (c : Bool) :
    -65536 ≤ s16 a - s16 b - carryInt c ∧ s16 a - s16 b - carryInt c ≤ 65535 := by
  have ha := s16_mem a
  have hb := s16_mem b
  have hc := carryInt_mem c
  omega

/-- Settles O13: as for the sum, the difference is at most 17 bits wide, and `clamp16` pins it to the nearest bound. -/
theorem saturatingSubtractIsTheClampedExactDifference : Obligations.SaturatingSubtractIsTheClampedExactDifference :=
  fun a b c => ⟨s16_clamp16 _, s16_sub_sub_carryInt_mem a b c⟩

/-- The source's two-step subtract: the clamped difference, less the borrow, clamped again. -/
def clampThenBorrow (d : Int) (c : Bool) : Lane := clamp16 (s16 (clamp16 d) - carryInt c)

/-- Without a borrow the second clamp changes nothing. -/
theorem clampThenBorrow_false (d : Int) : clampThenBorrow d false = clamp16 d := by
  rw [clampThenBorrow, carryInt, if_neg Bool.false_ne_true, Int.sub_zero, clamp16_s16]

theorem clamp16_of_ge {n : Int} (h : 32767 ≤ n) : clamp16 n = 0x7FFF := by
  rcases eq_or_lt_of_le h with rfl | hlt
  · rfl
  · exact clamp16_of_gt hlt

theorem clamp16_of_le {n : Int} (h : n ≤ -32768) : clamp16 n = 0x8000 := by
  rcases eq_or_lt_of_le h with rfl | hlt
  · rfl
  · exact clamp16_of_lt hlt

/-- A difference that does not overflow upward is borrowed from correctly. -/
theorem clampThenBorrow_of_le {d : Int} (h : d ≤ 32767) (c : Bool) :
    clampThenBorrow d c = clamp16 (d - carryInt c) := by
  have hc := (carryInt_mem c).1
  rw [clampThenBorrow, s16_clamp16, min_eq_right h]
  rcases le_total (-32768) d with hl | hl
  · rw [max_eq_right hl]
  · rw [max_eq_left hl, clamp16_of_le (by omega), clamp16_of_le (by omega)]

/-- After an upward overflow the borrow comes off the bound, one below the right result. -/
theorem clampThenBorrow_true_of_gt {d : Int} (h : 32767 < d) : clampThenBorrow d true = 0x7FFE := by
  rw [clampThenBorrow, clamp16_of_gt h]
  rfl

theorem clampThenBorrow_eq_iff (d : Int) (c : Bool) :
    clampThenBorrow d c = clamp16 (d - carryInt c) ↔ ¬ (c = true ∧ 32768 ≤ d) := by
  rcases le_or_gt d 32767 with hle | hgt
  · exact iff_of_true (clampThenBorrow_of_le hle c) fun h => by omega
  · cases c with
    | false => exact iff_of_true (by rw [clampThenBorrow_false]; simp [carryInt]) (by simp)
    | true =>
      have hexact : clamp16 (d - carryInt true) = 0x7FFF := clamp16_of_ge (Int.le_sub_one_of_lt hgt)
      rw [clampThenBorrow_true_of_gt hgt, hexact]
      exact iff_of_false (by decide) (not_not.2 ⟨rfl, hgt⟩)

/-! ### The two policies (R107) -/

theorem signedClampSub_exact_of_overflow {a b : Lane} (h : 32768 ≤ s16 a - s16 b) (c : Bool) :
    signedClampSub .exact a b c = 0x7FFF := by
  have hc := (carryInt_mem c).2
  exact clamp16_of_ge (by omega)

/-- The one input that EDGE_ONLY corrects. -/
theorem signedClampSub_edgeOnly_of_edge {a b : Lane} {c : Bool} (h : c = true ∧ s16 a - s16 b = 32768) :
    signedClampSub .edgeOnly a b c = 0x7FFF := if_pos h

theorem signedClampSub_edgeOnly_of_not_edge {a b : Lane} {c : Bool} (h : ¬ (c = true ∧ s16 a - s16 b = 32768)) :
    signedClampSub .edgeOnly a b c = clampThenBorrow (s16 a - s16 b) c := if_neg h

/-- Settles O14. EDGE_ONLY corrects the two-step subtract at 32768 alone, and that subtract is wrong from there on. -/
theorem subtractPoliciesDifferExactlyOnLargeDifferencesWithBorrow :
    Obligations.SubtractPoliciesDifferExactlyOnLargeDifferencesWithBorrow := by
  intro a b c
  have hvalues : c = true → 32769 ≤ s16 a - s16 b →
      signedClampSub .exact a b c = 0x7FFF ∧ signedClampSub .edgeOnly a b c = 0x7FFE := by
    rintro rfl hd
    rw [signedClampSub_edgeOnly_of_not_edge (by omega)]
    exact ⟨signedClampSub_exact_of_overflow (by omega) true, clampThenBorrow_true_of_gt (by omega)⟩
  refine ⟨⟨fun hne => ?_, fun ⟨hc, hd⟩ => ?_⟩, hvalues⟩
  · by_contra hsmall
    by_cases hedge : c = true ∧ s16 a - s16 b = 32768
    · exact hne ((signedClampSub_exact_of_overflow hedge.2.ge c).trans (signedClampSub_edgeOnly_of_edge hedge).symm)
    · rw [signedClampSub_edgeOnly_of_not_edge hedge] at hne
      refine hne ((clampThenBorrow_eq_iff _ c).2 fun ⟨hc, hd⟩ => ?_).symm
      exact hsmall ⟨hc, lt_of_le_of_ne hd fun h => hedge ⟨hc, h.symm⟩⟩
  · obtain ⟨hexact, hedgeOnly⟩ := hvalues hc hd
    rw [hexact, hedgeOnly]
    decide

/-- Settles O15. The two-step subtract is wrong exactly where the suppression acts, and there the clamped difference is
the bound EXACT gives. -/
theorem suppressedBorrowProcedureIsTheExactPolicy : Obligations.SuppressedBorrowProcedureIsTheExactPolicy := by
  intro a b c d r naive
  have hnaive : naive = signedClampSub .exact a b c ↔ ¬ (c = true ∧ 32768 ≤ d) := clampThenBorrow_eq_iff d c
  refine ⟨?_, by rw [Ne, hnaive, not_not], ?_⟩
  · split
    next hover => exact (clamp16_of_gt hover.2).trans (signedClampSub_exact_of_overflow hover.2 c).symm
    next hover => exact hnaive.2 hover
  · rintro rfl hd
    exact clampThenBorrow_true_of_gt hd

end Sys2Proof.Machine
end

section
/-! SUPPORT. Operand fetch (30_encoding.md section 3) and the views of a register (20_memory.md section 2). -/

namespace Sys2Proof.Machine

/-! ### The broadcast table (R76) -/

/-- A broadcast is known by the lane of the target that reaches each lane. -/
theorem bcast_eq_of_idx {v w : Vec} {e : Elem} (h : ∀ i : Fin 8, v[idx e i] = w[i]) : bcast v e = w :=
  lanes_ext fun i => (bcast_get v e i i.isLt).trans (h i)

/-- The element values 0 and 1 select each lane itself. -/
theorem bcast_whole (v : Vec) {e : Elem} (h : e = 0 ∨ e = 1) : bcast v e = v := by
  refine bcast_eq_of_idx fun i => ?_
  have hidx : idx e i = i := by revert e i; decide
  exact congrArg (fun j : Fin 8 => v[j]) hidx

/-- The element values from 8 up select one lane for all. -/
theorem idx_single (k i : Fin 8) : idx (BitVec.ofNat 4 (8 + k.val)) i = k := by
  revert k i; decide

theorem bcast_single (v : Vec) (k : Fin 8) : bcast v (BitVec.ofNat 4 (8 + k.val)) = Vector.replicate 8 v[k] :=
  bcast_eq_of_idx fun i =>
    (congrArg (fun j : Fin 8 => v[j]) (idx_single k i)).trans (Vector.getElem_replicate i.isLt).symm

/-- Settles O9: the quarter and half rows lane by lane, the others by what they select. -/
theorem broadcastFollowsTheSixteenRowTable : Obligations.BroadcastFollowsTheSixteenRowTable := by
  refine fun v => ⟨bcast_whole v (.inl rfl), bcast_whole v (.inr rfl), ?_, ?_, ?_, ?_, ?_, ?_, bcast_single v⟩ <;>
  · refine bcast_eq_of_idx fun i => ?_
    fin_cases i <;> rfl

/-! ### The select of VSAW (R78) -/

/-- XOR8 maps 8, 9 and 10 to the three legal selects. -/
theorem sawSel_xor8_toNat {e : Elem} (h : e = 8 ∨ e = 9 ∨ e = 10) : (sawSel .xor8 e).toNat = e.toNat - 8 := by
  rcases h with rfl | rfl | rfl <;> rfl

/-- Under XOR8 every other element value is delivered as 7. -/
theorem sawSel_xor8_eq_seven {e : Elem} (h : ¬ (e = 8 ∨ e = 9 ∨ e = 10)) : sawSel .xor8 e = 7 := by
  revert e; decide

/-- Settles O10. -/
theorem sawSelectOfElementField : Obligations.SawSelectOfElementField :=
  fun e => ⟨by simp [sawSel], sawSel_xor8_toNat, sawSel_xor8_eq_seven⟩

/-! ### The views of a register (R23, R51) -/

theorem bitsLane_vecBits (v : Vec) (i : Fin 8) : bitsLane (vecBits v) i = v[i] := by
  change (v[0] ++ v[1] ++ v[2] ++ v[3] ++ v[4] ++ v[5] ++ v[6] ++ v[7]).extractLsb' (112 - 16 * i.val) 16 = v[i]
  fin_cases i <;>
    simp (disch := decide) only [BitVec.extractLsb'_append_eq_of_le, BitVec.extractLsb'_append_eq_of_add_le,
      BitVec.extractLsb'_eq_self, Nat.reduceMul, Nat.reduceSub, Fin.getElem_fin]

theorem ofBits_vecBits (v : Vec) : ofBits (vecBits v) = v :=
  lanes_ext fun i => (lanewise_get _ i i.isLt).trans (bitsLane_vecBits v i)

/-- Four lanes of a word, side by side, are the 64 bits they cover. -/
theorem extractLsb'_append_four (b : BitVec 128) (n : Nat) :
    b.extractLsb' (n + 48) 16 ++ b.extractLsb' (n + 32) 16 ++ b.extractLsb' (n + 16) 16 ++ b.extractLsb' n 16 =
      b.extractLsb' n 64 := by
  rw [BitVec.extractLsb'_append_extractLsb'_eq_extractLsb' (show n + 48 = n + 32 + 16 from rfl),
    BitVec.extractLsb'_append_extractLsb'_eq_extractLsb' (show n + 32 = n + 16 + 16 from rfl),
    BitVec.extractLsb'_append_extractLsb'_eq_extractLsb' rfl]

/-- The lanes of a word, side by side, are the word. -/
theorem vecBits_ofBits (b : BitVec 128) : vecBits (ofBits b) = b := by
  have hhigh : bitsLane b 0 ++ bitsLane b 1 ++ bitsLane b 2 ++ bitsLane b 3 = b.extractLsb' 64 64 :=
    extractLsb'_append_four b 64
  simp only [vecBits, ofBits, lanewise_get]
  change bitsLane b 0 ++ bitsLane b 1 ++ bitsLane b 2 ++ bitsLane b 3 ++ b.extractLsb' 48 16 ++ b.extractLsb' 32 16 ++
    b.extractLsb' 16 16 ++ b.extractLsb' 0 16 = b
  rw [hhigh, BitVec.extractLsb'_append_extractLsb'_eq_extractLsb' (show 64 = 48 + 16 from rfl),
    BitVec.extractLsb'_append_extractLsb'_eq_extractLsb' (show 48 = 32 + 16 from rfl),
    BitVec.extractLsb'_append_extractLsb'_eq_extractLsb' (show 32 = 16 + 16 from rfl),
    BitVec.extractLsb'_append_extractLsb'_eq_extractLsb' (show 16 = 0 + 16 from rfl)]
  exact BitVec.extractLsb'_eq_self

/-- A lane is its high byte beside its low byte. -/
theorem vecByte_append (v : Vec) (i : Fin 8) :
    vecByte v ⟨2 * i.val, by omega⟩ ++ vecByte v ⟨2 * i.val + 1, by omega⟩ = v[i] := by
  rw [← bitsLane_vecBits, bitsLane, vecByte, vecByte]
  have hlow : 120 - 8 * (2 * i.val + 1) = 112 - 16 * i.val := by omega
  have hhigh : 120 - 8 * (2 * i.val) = 112 - 16 * i.val + 8 := by omega
  rw [hlow, hhigh]
  exact BitVec.extractLsb'_append_extractLsb'_eq_extractLsb' rfl

theorem vecDword_zero (v : Vec) : vecDword v 0 = v[0] ++ v[1] ++ v[2] ++ v[3] := by
  have hlane := bitsLane_vecBits v
  rw [show v[0] = _ from (hlane 0).symm, show v[1] = _ from (hlane 1).symm, show v[2] = _ from (hlane 2).symm,
    show v[3] = _ from (hlane 3).symm]
  exact (extractLsb'_append_four (vecBits v) 64).symm

theorem vecDword_one (v : Vec) : vecDword v 1 = v[4] ++ v[5] ++ v[6] ++ v[7] := by
  have hlane := bitsLane_vecBits v
  rw [show v[4] = _ from (hlane 4).symm, show v[5] = _ from (hlane 5).symm, show v[6] = _ from (hlane 6).symm,
    show v[7] = _ from (hlane 7).symm]
  exact (extractLsb'_append_four (vecBits v) 0).symm

/-- Settles O51: every view is a run of adjacent lanes, or a part of one. -/
theorem registerViewsAreBigEndianLanes : Obligations.RegisterViewsAreBigEndianLanes :=
  fun v => ⟨bitsLane_vecBits v, ofBits_vecBits v, vecBits_ofBits, fun i => (vecByte_append v i).symm,
    vecDword_zero v, vecDword_one v⟩

end Sys2Proof.Machine
end

section
/-! SUPPORT. What a handler leaves unchanged, reads and ignores, for all six opcodes at once (10_state.md section 5,
40_primitives.md section 1), and the rules about one instruction that follow. -/

namespace Sys2Proof.Machine

/-! ### What a handler does to the accumulator -/

/-- Only the low slice of an accumulator lane is ever written (R26). -/
theorem handler_acc_upper (p : Params) (op : Op) (x : CoreIn) (k : Fin 8) :
    ((handler p op x).acc[k]).extractLsb' 16 32 = x.acc[k].extractLsb' 16 32 := by
  cases op with
  | vsaw => rw [handler, (vsawHandler_keeps p x).1]
  | vadd | vsub | vabs | vaddc | vsubc => simp [handler]

/-- VADDC, VSUBC and VABS write one value to the destination and the low slice. -/
theorem handler_dOut_get_eq_sliceLo (p : Params) {op : Op} (h : op = .vaddc ∨ op = .vsubc ∨ op = .vabs) (x : CoreIn)
    (k : Fin 8) : (handler p op x).dOut[k] = sliceLo (handler p op x).acc[k] := by
  rcases h with rfl | rfl | rfl <;> simp [handler]

/-- The mid and high slices are the two halves of bits 47:16. -/
theorem sliceMd_eq_extract_upper (a : AccLane) : sliceMd a = (a.extractLsb' 16 32).extractLsb' 0 16 := by
  ext j hj; simp [sliceMd]; omega

theorem sliceHi_eq_extract_upper (a : AccLane) : sliceHi a = (a.extractLsb' 16 32).extractLsb' 16 16 := by
  ext j hj; simp [sliceHi, show 16 + j < 32 by omega, show 16 + (16 + j) = 32 + j by omega]

/-! ### Neither VADDC nor VSUBC reads a flag, and VADD and VSUB do not read `ne` (R31, R150) -/

theorem fetchOperands_withFlags (s : State) (co ne : FlagVec) (i : Instr) :
    fetchOperands { s with co := co, ne := ne } i = { fetchOperands s i with co := co, ne := ne } := by
  cases i <;> rfl

theorem writeBack_withFlags (s : State) (co ne : FlagVec) (r : VReg) (o : CoreOut) :
    writeBack { s with co := co, ne := ne } r o = writeBack s r o := rfl

theorem handler_withNe (p : Params) {op : Op} (h : op = .vadd ∨ op = .vsub) (x : CoreIn) (ne : FlagVec) :
    handler p op { x with ne := ne } = handler p op x := by
  rcases h with rfl | rfl <;> rfl

/-- A flag vector the handler does not read cannot show in the next state. -/
theorem exec_withFlags {i : Instr} {s : State} {co ne : FlagVec}
    (h : handler s.params i.op { fetchOperands s i with co := co, ne := ne } =
      handler s.params i.op (fetchOperands s i)) :
    exec i { s with co := co, ne := ne } = exec i s := by
  rw [exec_eq_writeBack_handler, exec_eq_writeBack_handler, fetchOperands_withFlags, writeBack_withFlags, h]

theorem fetchOperands_acc (s : State) (i : Instr) : (fetchOperands s i).acc = s.acc := by
  cases i <;> rfl

theorem fetchOperands_co (s : State) (i : Instr) : (fetchOperands s i).co = s.co := by
  cases i <;> rfl

/-- Settles O32. The handlers of the carry-setting pair read neither flag vector, those of the other pair not `ne`. -/
theorem staleFlagsNeverLeak : Obligations.StaleFlagsNeverLeak := by
  refine fun i s co ne => ⟨fun h => exec_withFlags ?_, fun h => exec_withFlags (co := s.co) ?_⟩
  · exact (carrySettingHandlersFollowTheirContract s.params i.op (fetchOperands s i) h).2 co ne
  · rw [← fetchOperands_co s i]
    exact handler_withNe s.params h (fetchOperands s i) ne

/-! ### Lanes are independent (R102) -/

/-- VSAW's destination, lane by lane, on either select. -/
theorem vsawHandler_dOut_get_congr (p : Params) {x y : CoreIn} (k : Fin 8) (hd : x.dIn[k] = y.dIn[k])
    (hacc : x.acc[k] = y.acc[k]) (hsel : x.sel = y.sel) : (vsawHandler p x).dOut[k] = (vsawHandler p y).dOut[k] := by
  rcases le_or_gt x.sel.toNat 2 with hle | hlt
  · refine (vsawHandler_dOut_get_of_le p hle k k.isLt).trans ?_
    refine Eq.trans ?_ (vsawHandler_dOut_get_of_le p (hsel ▸ hle) k k.isLt).symm
    exact hsel ▸ congrArg (slice p.sawSliceMap · x.sel) hacc
  · rw [vsawHandler_dOut_of_lt p hlt, vsawHandler_dOut_of_lt p (hsel ▸ hlt)]
    cases p.sawIllegal with
    | unchanged => exact hd
    | zero => rfl

/-- Settles O31: lane `k` of every output is a function of lane `k` of the inputs and the select. -/
theorem handlerLanesAreIndependent : Obligations.HandlerLanesAreIndependent := by
  intro p op x y k hs ht hd hacc hco hsel
  simp only [Fin.getElem_fin] at hs ht hd hacc hco ⊢
  cases op with
  | vsaw =>
    obtain ⟨hxacc, hxco, hxne⟩ := vsawHandler_keeps p x
    obtain ⟨hyacc, hyco, hyne⟩ := vsawHandler_keeps p y
    simp only [handler, hxacc, hxco, hxne, hyacc, hyco, hyne]
    exact ⟨vsawHandler_dOut_get_congr p k hd hacc hsel, hacc, hco, fun h => h.resolve_right fun h => h.2 rfl⟩
  | vabs =>
    exact ⟨by simp [handler, hs, ht], by simp [handler, hs, ht, hacc], hco,
      fun h => h.resolve_right fun h => h.1 rfl⟩
  | vadd | vsub | vaddc | vsubc => simp [handler, hs, ht, hacc, hco]

/-! ### The table of effects (R30) -/

/-- Settles O30: the accumulator clauses hold of every handler, the flag clauses are each handler's own. -/
theorem flagAndAccumulatorEffectsTable : Obligations.FlagAndAccumulatorEffectsTable := by
  intro i s
  refine ⟨_, exec_eq_writeBack_handler i s, fun k => ?_, ?_, ?_⟩
  · rw [writeBack_acc, handler_acc_upper, fetchOperands_acc]
  · cases i with
    | vsaw vd vs vt e =>
      obtain ⟨hacc, hco, hne⟩ := vsawHandler_keeps s.params (fetchSaw s vd vs vt e)
      exact ⟨hco, hne, hacc⟩
    | vadd | vsub | vabs => exact ⟨rfl, rfl⟩
    | vaddc vd vs vt e => exact ⟨rfl, fun k => vaddcHandler_co_get _ k k.isLt⟩
    | vsubc vd vs vt e => exact fun k => ⟨vsubcHandler_co_get _ k k.isLt, vsubcHandler_ne_get _ k k.isLt⟩
  · have hsame (h : i.op = .vaddc ∨ i.op = .vsubc ∨ i.op = .vabs) (k : Fin 8) :
        (readVr (writeBack s i.vd (handler s.params i.op (fetchOperands s i))) i.vd)[k] =
          sliceLo (handler s.params i.op (fetchOperands s i)).acc[k] := by
      rw [readVr_writeBack_same, handler_dOut_get_eq_sliceLo s.params h]
    cases i with
    | vadd | vsub | vsaw => trivial
    | vaddc => exact hsame (.inl rfl)
    | vsubc => exact hsame (.inr (.inl rfl))
    | vabs => exact hsame (.inr (.inr rfl))

/-! ### One instruction, or one after another -/

/-- VSAW reads no operand register. -/
theorem vsawHandler_withOperands (p : Params) (x : CoreIn) (v w : Vec) :
    vsawHandler p { x with sIn := v, tIn := w } = vsawHandler p x := rfl

/-- Settles O28: the two fetches differ in the operands alone. -/
theorem vsawIgnoresSourceAndTarget : Obligations.VsawIgnoresSourceAndTarget := by
  intro vd vs vt vs' vt' e s
  have h : vsawHandler s.params (fetchSaw s vd vs vt e) = vsawHandler s.params (fetchSaw s vd vs' vt' e) :=
    vsawHandler_withOperands s.params (fetchSaw s vd vs' vt' e) (readVr s vs) (readVr s vt)
  rw [exec_vsaw, exec_vsaw, h]

/-- Settles O29: the wrapped sum of a lane and 0 is the lane. -/
theorem copyIntoAnyRegisterReadsBack : Obligations.CopyIntoAnyRegisterReadsBack := by
  intro r vs vt v s hv hzero
  refine ⟨_, exec_vaddc r vs vt 0 s, ?_⟩
  rw [readVr_writeBack_same]
  exact lanes_ext fun k => by simp [wrapAdd_eq, hv, hzero]

theorem signedClampAdd_false (a b : Lane) : signedClampAdd a b false = clamp16 (s16 a + s16 b) := by
  simp [signedClampAdd, carryInt]

/-- VADD and VSUB leave every carry at 0. -/
theorem co_of_exec_clearing {i : Instr} {s t : State} (h : i.op = .vadd ∨ i.op = .vsub) (hexec : exec i s = .next t) :
    t.co = clearedFlags := by
  rw [eq_writeBack_handler_of_exec_next hexec, writeBack_co]
  rcases h with h | h <;> rw [h] <;> rfl

/-- Settles O33: the second addition finds every carry at 0. -/
theorem carryIsConsumedOnce : Obligations.CarryIsConsumedOnce := by
  intro i s t hop hexec vd vs vt e
  refine ⟨_, exec_vadd vd vs vt e t, fun k => ?_⟩
  have hco : t.co[k] = false := by rw [co_of_exec_clearing hop hexec]; exact clearedFlags_get k k.isLt
  rw [readVr_writeBack_same, ← signedClampAdd_false, ← hco]
  exact vaddHandler_dOut_get _ k k.isLt

/-- Under DOC a VSAW with select 0 completes after any instruction and reads the low slices that one left. -/
theorem vsaw_reads_low_of_exec {i : Instr} {s t : State} {e : Elem} {f : Fin 8 → Lane} (hexec : exec i s = .next t)
    (hmap : s.params.sawSliceMap = .doc) (hsel : sawSel s.params.sawDecode e = 0) (hlo : ∀ k, sliceLo t.acc[k] = f k)
    (vd vs vt : VReg) :
    ∃ t u, exec i s = .next t ∧ exec (.vsaw vd vs vt e) t = .next u ∧ ∀ k : Fin 8, (readVr u vd)[k] = f k := by
  have hparams : t.params = s.params := by rw [eq_writeBack_handler_of_exec_next hexec, writeBack_params]
  obtain ⟨-, u, hu, hread, -⟩ := vsawReadsASliceOrFallsBackAndLogs vd vs vt e t _ rfl
  exact ⟨t, u, hexec, hu, fun k => (((hread k).1 (hparams ▸ hmap)).1 (hparams ▸ hsel)).trans (hlo k)⟩

/-- Settles O34: the low slices VSAW reads are the wrapped results the instruction before it wrote. -/
theorem accumulatorReadSeesTheWriteBeforeIt : Obligations.AccumulatorReadSeesTheWriteBeforeIt := by
  intro vd vs vt vd' vs' vt' e e' s hmap hsel
  obtain ⟨-, t, ht, hadd, -⟩ := vaddAddsWithCarryInAndClearsFlags vd vs vt e s
  obtain ⟨-, t', ht', hsub, -⟩ := vsubSubtractsWithBorrowInAndClearsFlags vd vs vt e s
  exact ⟨vsaw_reads_low_of_exec ht hmap hsel (fun k => (hadd k _ _ _ rfl rfl rfl).2.1) vd' vs' vt',
    vsaw_reads_low_of_exec ht' hmap hsel (fun k => (hsub k _ _ _ rfl rfl rfl).2.1) vd' vs' vt'⟩

/-- A lane with its own sign source is its magnitude, saturated. -/
theorem s16_abs16_self (a : Lane) : s16 (abs16 a a) = min 32767 |s16 a| := by
  have hpos := abs_nonneg (s16 a)
  rw [abs16_eq_clamp16_sign_mul, Int.sign_mul_self_eq_abs, s16_clamp16, max_eq_right (by omega)]

/-- Settles O37: without a broadcast both operands of a lane are the same lane. -/
theorem vabsOfARegisterWithItselfIsItsMagnitude : Obligations.VabsOfARegisterWithItselfIsItsMagnitude := by
  intro vd r s
  obtain ⟨-, t, ht, hlanes, -⟩ := vabsNegatesBySignAndKeepsFlags vd r r 0 s
  refine ⟨t, ht, fun k => ?_⟩
  obtain ⟨hd, -⟩ := hlanes k _ _ rfl rfl
  rw [hd, bcast_whole _ (.inl rfl)]
  exact s16_abs16_self _

theorem notEq16_of_borrow16 {a b : Lane} (h : borrow16 a b = true) : notEq16 a b = true :=
  (notEq16_iff a b).2 fun hab => ((borrow16_iff a b).1 h).ne (congrArg BitVec.toNat hab)

/-- Equal lanes neither borrow nor differ. -/
theorem borrow16_notEq16_self (a : Lane) : borrow16 a a = false ∧ notEq16 a a = false := by
  simp [borrow16, notEq16]

/-- Settles O38: the flags of a lane are the borrow and the inequality of its two operands. -/
theorem borrowImpliesInequality : Obligations.BorrowImpliesInequality := by
  intro vd vs vt e s
  obtain ⟨-, t, ht, hlanes, -⟩ := vsubcWrapsAndSetsBorrowAndInequality vd vs vt e s
  refine ⟨t, ht, fun k => ?_⟩
  obtain ⟨-, -, -, -, hco, hne⟩ := hlanes k _ _ rfl rfl
  rw [hco, hne]
  exact ⟨notEq16_of_borrow16, fun heq => heq ▸ borrow16_notEq16_self _⟩

end Sys2Proof.Machine
end

section
/-! SUPPORT. Carry and borrow chains (42_carry_setting.md, 41_carry_clearing.md): a low half and a high half with the
carry between them are one 32-bit operation. -/

namespace Sys2Proof.Machine

/-! ### A 32-bit value as two lanes -/

theorem toNat_lane_append (h l : Lane) : (h ++ l).toNat = 65536 * h.toNat + l.toNat := by
  have hl := l.isLt
  rw [BitVec.toNat_append, ← Nat.shiftLeft_add_eq_or_of_lt hl, Nat.shiftLeft_eq]
  omega

/-- The signed reading takes its sign from the high lane and the low lane as it is. -/
theorem toInt_lane_append (h l : Lane) : (h ++ l).toInt = 65536 * s16 h + l.toNat := BitVec.toInt_append

theorem carryInt_eq_toNat (c : Bool) : carryInt c = c.toNat := by
  cases c <;> rfl

theorem toNat_setWidth_ofBool (c : Bool) : (BitVec.setWidth 16 (BitVec.ofBool c)).toNat = c.toNat := by
  cases c <;> rfl

/-! ### The low half: what carry and borrow are worth -/

theorem toNat_add_toNat_eq_carry (a b : Lane) :
    a.toNat + b.toNat = 65536 * (carry16 a b).toNat + (wrapAdd a b).toNat := by
  have ha := a.isLt
  have hb := b.isLt
  rw [wrapAdd_eq, BitVec.toNat_add]
  cases hc : carry16 a b with
  | true =>
    have h := (carry16_iff a b).1 hc
    rw [Bool.toNat_true]
    omega
  | false =>
    have h := mt (carry16_iff a b).2 (Bool.eq_false_iff.1 hc)
    rw [Bool.toNat_false]
    omega

theorem toNat_add_borrow_eq (a b : Lane) :
    a.toNat + 65536 * (borrow16 a b).toNat = b.toNat + (wrapSub a b).toNat := by
  have ha := a.isLt
  have hb := b.isLt
  rw [wrapSub_eq, BitVec.toNat_sub]
  cases hc : borrow16 a b with
  | true =>
    have h := (borrow16_iff a b).1 hc
    rw [Bool.toNat_true]
    omega
  | false =>
    have h := mt (borrow16_iff a b).2 (Bool.eq_false_iff.1 hc)
    rw [Bool.toNat_false]
    omega

/-! ### Both halves, modulo 2^32 -/

theorem toNat_accAdd (a b : Lane) (c : Bool) : (accAdd a b c).toNat = (a.toNat + b.toNat + c.toNat) % 65536 := by
  rw [accAdd_eq, BitVec.toNat_add, BitVec.toNat_add, toNat_setWidth_ofBool]
  omega

theorem toNat_accSub (a b : Lane) (c : Bool) :
    (accSub a b c).toNat = (a.toNat + (131072 - b.toNat - c.toNat)) % 65536 := by
  have hb := b.isLt
  have hc := c.toNat_le
  rw [accSub_eq, BitVec.toNat_sub, BitVec.toNat_sub, toNat_setWidth_ofBool]
  omega

theorem accAdd_append_wrapAdd (a b al bl : Lane) :
    accAdd a b (carry16 al bl) ++ wrapAdd al bl = (a ++ al) + (b ++ bl) := by
  have hlow := toNat_add_toNat_eq_carry al bl
  have hl := (wrapAdd al bl).isLt
  apply BitVec.eq_of_toNat_eq
  rw [toNat_lane_append, toNat_accAdd, BitVec.toNat_add, toNat_lane_append, toNat_lane_append]
  omega

theorem accSub_append_wrapSub (a b al bl : Lane) :
    accSub a b (borrow16 al bl) ++ wrapSub al bl = (a ++ al) - (b ++ bl) := by
  have hlow := toNat_add_borrow_eq al bl
  have hl := (wrapSub al bl).isLt
  have hc := (borrow16 al bl).toNat_le
  have hb := b.isLt
  have hbl := bl.isLt
  apply BitVec.eq_of_toNat_eq
  rw [toNat_lane_append, toNat_accSub, BitVec.toNat_sub, toNat_lane_append, toNat_lane_append]
  omega

/-! ### The saturated high half, where the 32-bit result fits -/

/-- A 32-bit sum in range leaves a high half in range: nothing saturates. -/
theorem signedClampAdd_eq_accAdd {a b al bl : Lane} (hl : -2147483648 ≤ (a ++ al).toInt + (b ++ bl).toInt)
    (hu : (a ++ al).toInt + (b ++ bl).toInt ≤ 2147483647) :
    signedClampAdd a b (carry16 al bl) = accAdd a b (carry16 al bl) := by
  have hlow := toNat_add_toNat_eq_carry al bl
  have hlt := (wrapAdd al bl).isLt
  rw [toInt_lane_append, toInt_lane_append] at hl hu
  exact clamp16_of_mem (by rw [carryInt_eq_toNat]; omega) (by rw [carryInt_eq_toNat]; omega)

theorem signedClampSub_exact_eq_accSub {a b al bl : Lane} (hl : -2147483648 ≤ (a ++ al).toInt - (b ++ bl).toInt)
    (hu : (a ++ al).toInt - (b ++ bl).toInt ≤ 2147483647) :
    signedClampSub .exact a b (borrow16 al bl) = accSub a b (borrow16 al bl) := by
  have hlow := toNat_add_borrow_eq al bl
  have hlt := (wrapSub al bl).isLt
  rw [toInt_lane_append, toInt_lane_append] at hl hu
  exact clamp16_of_mem (by rw [carryInt_eq_toNat]; omega) (by rw [carryInt_eq_toNat]; omega)

/-! ### The two chains -/

/-- Settles O35. The first instruction leaves the operands of the second alone, and the second leaves the low
destination alone. -/
theorem carryChainAddsThirtyTwoBitLanes : Obligations.CarryChainAddsThirtyTwoBitLanes := by
  intro dl sl tl dh sh th el eh s hsh hth hdh
  obtain ⟨-, t, ht, hlow, hother, -⟩ := vaddcWrapsAndSetsCarry dl sl tl el s
  obtain ⟨-, u, hu, hhigh, hother', -⟩ := vaddAddsWithCarryInAndClearsFlags dh sh th eh t
  refine ⟨t, u, ht, hu, ?_⟩
  rintro k _ _ rfl rfl
  obtain ⟨hdl, -, -, -, hco, -⟩ := hlow k _ _ rfl rfl
  obtain ⟨hclamp, hacc, -⟩ := hhigh k _ _ _ rfl rfl rfl
  rw [hother sh hsh.symm, hother th hth.symm, hco] at hclamp hacc
  rw [hother' dl hdh, hdl, hclamp, hacc]
  refine ⟨accAdd_append_wrapAdd _ _ _ _, fun hl hu => ?_⟩
  rw [signedClampAdd_eq_accAdd hl hu]
  exact accAdd_append_wrapAdd _ _ _ _

/-- Settles O36. As for the carry chain, the policy being the one the state held before it. -/
theorem borrowChainSubtractsThirtyTwoBitLanes : Obligations.BorrowChainSubtractsThirtyTwoBitLanes := by
  intro dl sl tl dh sh th el eh s hsh hth hdh
  obtain ⟨-, t, ht, hlow, hother, -, hparams, -⟩ := vsubcWrapsAndSetsBorrowAndInequality dl sl tl el s
  obtain ⟨-, u, hu, hhigh, hother', -⟩ := vsubSubtractsWithBorrowInAndClearsFlags dh sh th eh t
  refine ⟨t, u, ht, hu, ?_⟩
  rintro k _ _ rfl rfl
  obtain ⟨hdl, -, -, -, hco, -⟩ := hlow k _ _ rfl rfl
  obtain ⟨hclamp, hacc, -⟩ := hhigh k _ _ _ rfl rfl rfl
  rw [hother sh hsh.symm, hother th hth.symm, hco] at hclamp hacc
  rw [hother' dl hdh, hdl, hclamp, hacc, hparams]
  refine ⟨accSub_append_wrapSub _ _ _ _, fun hexact hl hu => ?_⟩
  rw [hexact, signedClampSub_exact_eq_accSub hl hu]
  exact accSub_append_wrapSub _ _ _ _

end Sys2Proof.Machine
end

section
/-! SUPPORT. Steps (40_primitives.md section 1, 60_exceptions.md section 1): what a step does by the event at the head of
the feed, the invariants every step keeps, and the initial states. -/

namespace Sys2Proof.Machine

/-! ### One step, by the event taken -/

theorem step_of_feed_nil {s : State} (h : s.feed = []) : step s = .next s := by
  rw [step_eq, h]

theorem step_of_decode_ok {s : State} {w : Word} {rest : List Event} {i : Instr} (hf : s.feed = .word w :: rest)
    (hw : decode w = .ok i) : step s = exec i { s with feed := rest } := by
  simp only [step_eq, hf, applyEvent, invokeWord, hw]

theorem step_of_decode_error {s : State} {w : Word} {rest : List Event} {r : DecodeReject}
    (hf : s.feed = .word w :: rest) (hw : decode w = .error r) : step s = .refused (rejectWord w r) := by
  simp only [step_eq, hf, applyEvent, invokeWord, hw]

theorem step_of_peer {s : State} {p : PeerWrite} {rest : List Event} (hf : s.feed = .peer p :: rest) :
    step s = .next (applyPeer p { s with feed := rest }) := by
  simp only [step_eq, hf, applyEvent]

/-- Settles O41, the decoding branch of a step. -/
theorem stepRunsTheDecodedInstruction : Obligations.StepRunsTheDecodedInstruction :=
  fun _ _ _ _ => step_of_decode_ok

/-- Settles O43, the idle branch of a step. -/
theorem stepWithoutEventChangesNothing : Obligations.StepWithoutEventChangesNothing :=
  fun _ => step_of_feed_nil

/-- Settles O42: the decoder refuses the word, and the step carries its refusal. -/
theorem foreignWordIsRefusedByName : Obligations.ForeignWordIsRefusedByName := by
  intro s w rest hf hnone
  have hstep := step_of_decode_error hf (decode_of_matches_none hnone)
  have hhead := isCoreFormat_iff w
  exact ⟨fun h => by rw [hstep, if_neg (mt hhead.1 h)]; rfl, fun h => by rw [hstep, if_pos (hhead.2 h)]; rfl⟩

/-! ### One instruction word as one core transaction (R100) -/

/-- The inputs the frame of R100 names are those the instruction fetches. -/
theorem eq_fetchOperands {s : State} {i : Instr} {x : CoreIn} (hs : x.sIn = readVr s i.vs) (hd : x.dIn = readVr s i.vd)
    (ht : x.tIn = if i.op = .vsaw then readVr s i.vt else bcast (readVr s i.vt) i.e)
    (hsel : x.sel = if i.op = .vsaw then sawSel s.params.sawDecode i.e else 0)
    (hacc : x.acc = s.acc) (hco : x.co = s.co) (hne : x.ne = s.ne) : x = fetchOperands s i := by
  obtain ⟨dIn, sIn, tIn, sel, acc, co, ne⟩ := x
  simp only at hs hd ht hsel hacc hco hne
  subst hs hd ht hsel hacc hco hne
  cases i <;> rfl

theorem fetchOperands_withFeed (s : State) (feed : List Event) (i : Instr) :
    fetchOperands { s with feed := feed } i = fetchOperands s i := by
  cases i <;> rfl

theorem writeBack_withFeed (s : State) (feed : List Event) (r : VReg) (o : CoreOut) :
    writeBack { s with feed := feed } r o = { writeBack s r o with feed := feed } := rfl

/-- The feed passes through an instruction unread. -/
theorem exec_withFeed (i : Instr) (s : State) (feed : List Event) :
    exec i { s with feed := feed } =
      .next { writeBack s i.vd (handler s.params i.op (fetchOperands s i)) with feed := feed } := by
  rw [exec_eq_writeBack_handler, fetchOperands_withFeed, writeBack_withFeed]

/-- A step on a word that decodes writes back what the handler returns for the operands of the state before it. -/
theorem step_eq_writeBack_handler {s : State} {w : Word} {rest : List Event} {i : Instr}
    (hf : s.feed = .word w :: rest) (hw : decode w = .ok i) :
    step s = .next { writeBack s i.vd (handler s.params i.op (fetchOperands s i)) with feed := rest } := by
  rw [step_of_decode_ok hf hw, exec_withFeed]

/-- Settles O21: the clauses are what a write-back of the handler's outputs does. -/
theorem instructionWordIsOneCoreTransaction : Obligations.InstructionWordIsOneCoreTransaction := by
  refine fun s w rest hf => ⟨fun r hw => ⟨_, step_of_decode_error hf hw⟩, ?_⟩
  intro i hw x hs hd ht hsel hacc hco hne
  obtain rfl := eq_fetchOperands hs hd ht hsel hacc hco hne
  exact ⟨_, step_eq_writeBack_handler hf hw, rfl, rfl, rfl, rfl, readVr_writeBack_same s i.vd _,
    fun r hr => readVr_writeBack_other s i.vd r _ hr, rfl, rfl⟩

/-! ### A peer family's write (R36) -/

theorem readVr_applyPeer_other {p : PeerWrite} {r : VReg} (h : ∀ v, p.vr ≠ some (r, v)) (s : State) :
    readVr (applyPeer p s) r = readVr s r := by
  cases hvr : p.vr with
  | none => simp only [applyPeer, hvr]; rfl
  | some rv =>
    obtain ⟨q, v⟩ := rv
    have hq : r ≠ q := fun hq => h v (hq ▸ hvr)
    simp only [applyPeer, hvr]
    exact readVr_writeVr_other _ q r v hq

theorem readVr_applyPeer_same {p : PeerWrite} {r : VReg} {v : Vec} (h : p.vr = some (r, v)) (s : State) :
    readVr (applyPeer p s) r = v := by
  simp only [applyPeer, h, readVr_writeVr_same]

/-- Settles O44, slice by slice and register by register. -/
theorem peerWritesOnlyWhatItsEventCarries : Obligations.PeerWritesOnlyWhatItsEventCarries := by
  intro s p rest hf
  refine ⟨_, step_of_peer hf, applyPeer_feed _ _, applyPeer_diag _ _, applyPeer_params _ _, applyPeer_co _ _,
    applyPeer_ne _ _, fun k => ?_, fun r h => readVr_applyPeer_other h _, fun r v h => readVr_applyPeer_same h _⟩
  simp [peerAcc_get]

/-! ### What every step keeps -/

/-- Settles O45: neither a write-back nor a peer's write touches the parameters. -/
theorem stepKeepsParameters : Obligations.StepKeepsParameters := by
  intro s t h
  rcases step_next_cases h with ⟨-, rfl⟩ | ⟨w, rest, i, -, -, hexec⟩ | ⟨p, rest, -, rfl⟩
  · rfl
  · rw [eq_writeBack_handler_of_exec_next hexec, writeBack_params]
  · rw [applyPeer_params]

/-- Settles O46: no handler writes above the low slice, and the peer's event is excluded. -/
theorem stepOfTheCoreKeepsUpperSlices : Obligations.StepOfTheCoreKeepsUpperSlices := by
  intro s t h hpeer k
  have hupper : t.acc[k].extractLsb' 16 32 = s.acc[k].extractLsb' 16 32 := by
    rcases step_next_cases h with ⟨-, rfl⟩ | ⟨w, rest, i, -, -, hexec⟩ | ⟨p, rest, hf, -⟩
    · rfl
    · rw [eq_writeBack_handler_of_exec_next hexec, writeBack_acc, handler_acc_upper, fetchOperands_acc]
    · exact absurd hf (hpeer p rest)
  simp only [sliceMd_eq_extract_upper, sliceHi_eq_extract_upper, hupper, and_self]

/-- A handler's record holds the select of an illegal VSAW. -/
theorem handler_diag_eq_some {p : Params} {op : Op} {x : CoreIn} {d : Diag} (h : (handler p op x).diag = some d) :
    op = .vsaw ∧ 2 < x.sel.toNat ∧ d.sel = x.sel := by
  obtain ⟨rfl, hsel⟩ := (handler_diag_ne_none_iff p op x).1 (h ▸ Option.some_ne_none d)
  obtain rfl := Option.some.inj ((vsawHandler_diag_of_lt p hsel).symm.trans h)
  exact ⟨rfl, hsel, rfl⟩

/-- Under XOR8 the one illegal select is 7 (R78). -/
theorem sawSel_xor8_of_illegal {e : Elem} (h : 2 < (sawSel .xor8 e).toNat) : sawSel .xor8 e = 7#3 := by
  revert e; decide

/-- A record with an illegal select that VSAW took from its element field is one the core can have written. -/
theorem diagOk_of_sawSel {p : Params} {d : Diag} {e : Elem} (hsel : d.sel = sawSel p.sawDecode e)
    (hillegal : 2 < d.sel.toNat) : diagOk p d = true := by
  rw [diagOk, (selLegal_false_iff _).2 hillegal]
  cases hp : p.sawDecode with
  | low3 => rfl
  | xor8 =>
    rw [hp] at hsel
    exact decide_eq_true (hsel.trans (sawSel_xor8_of_illegal (hsel ▸ hillegal)))

theorem exec_keeps_diagInv {i : Instr} {s t : State} (hinv : DiagInv s) (hexec : exec i s = .next t) : DiagInv t := by
  obtain rfl := eq_writeBack_handler_of_exec_next hexec
  intro d hd
  rw [writeBack_diag, List.mem_append, Option.mem_toList] at hd
  rcases hd with hold | hnew
  · exact hinv d hold
  · obtain ⟨hop, hillegal, hsel⟩ := handler_diag_eq_some hnew
    exact diagOk_of_sawSel (hsel.trans (fetchOperands_sel_of_vsaw hop s)) (hsel ▸ hillegal)

/-- Settles O40. An instruction adds at most the record of its own illegal select; idling and a peer add none. -/
theorem stepKeepsDiagnosticInvariant : Obligations.StepKeepsDiagnosticInvariant := by
  intro s t hinv h
  rcases step_next_cases h with ⟨-, rfl⟩ | ⟨w, rest, i, -, -, hexec⟩ | ⟨_, _, -, rfl⟩
  · exact hinv
  · exact exec_keeps_diagInv (s := { s with feed := rest }) hinv hexec
  · intro d hd
    rw [applyPeer_diag] at hd
    rw [applyPeer_params]
    exact hinv d hd

/-! ### Initial states (R37, R240) -/

/-- Settles O1, by the `P_INIT` made of the values given. -/
theorem initialStateIsAnyPInitWithEmptyLog : Obligations.InitialStateIsAnyPInitWithEmptyLog :=
  fun _ vr acc co ne => ⟨⟨vr, acc, co, ne⟩, _, rfl, rfl, rfl, rfl, rfl, rfl, rfl⟩

theorem initial_diagInv (p : Params) (init : Init) : DiagInv (State.initial p init) :=
  fun _ hd => absurd hd List.not_mem_nil

/-- Settles O2: reset is an initial state, whose log is empty. -/
theorem resetMeetsDiagnosticInvariant : Obligations.ResetMeetsDiagnosticInvariant :=
  initial_diagInv Params.default Init.resetChoice

end Sys2Proof.Machine
end

section
/-! SUPPORT. Runs over the core's own events and up to the first foreign word (60_exceptions.md section 1,
20_memory.md section 5), and several cores side by side (60_exceptions.md section 4). -/

namespace Sys2Proof.Machine

/-! ### Runs -/

theorem runFor_succ_of_next {s t : State} (h : step s = .next t) (n : Nat) : runFor (n + 1) s = runFor n t := by
  rw [runFor_succ, h]

theorem runFor_succ_of_refused {s : State} {r : Refusal} (h : step s = .refused r) (n : Nat) :
    runFor (n + 1) s = .refused r := by
  rw [runFor_succ, h]

theorem execAll_cons_of_next {i : Instr} {s t : State} (h : exec i s = .next t) (is : List Instr) :
    execAll (i :: is) s = execAll is t := by
  rw [execAll, h]

/-- Settles O47, by induction on the instructions: the first word decodes to the first of them, which leaves the feed
alone. -/
theorem runOfEncodedInstructionsIsTheirCompositionInOrder :
    Obligations.RunOfEncodedInstructionsIsTheirCompositionInOrder := by
  intro is
  induction is with
  | nil =>
    intro s rest hf
    obtain rfl : s.feed = rest := hf
    rfl
  | cons i is ih =>
    intro s rest hf
    rw [List.length_cons, runFor_succ_of_next (step_eq_writeBack_handler hf (decode_encode i)), ih _ rest rfl,
      execAll_cons_of_next (exec_withFeed i s rest)]

/-- A step on an event of the core completes and takes it. -/
theorem step_of_coreEvent {s : State} {ev : Event} {rest : List Event} (hf : s.feed = ev :: rest)
    (hev : coreEvent ev = true) : ∃ t, step s = .next t ∧ t.feed = rest := by
  cases ev with
  | word w =>
    cases hw : decode w with
    | ok i => exact ⟨_, step_eq_writeBack_handler hf hw, rfl⟩
    | error r => rw [coreEvent, hw] at hev; cases hev
  | peer p => exact ⟨_, step_of_peer hf, applyPeer_feed _ _⟩

/-- A step on a feed of the core's events completes and leaves such a feed. -/
theorem step_of_coreFeed {s : State} (h : ∀ ev ∈ s.feed, coreEvent ev = true) :
    ∃ t, step s = .next t ∧ t.feed = s.feed.tail := by
  cases hf : s.feed with
  | nil => exact ⟨s, step_of_feed_nil hf, hf⟩
  | cons ev rest => exact step_of_coreEvent hf (h ev (hf ▸ List.mem_cons_self))

/-- Every run over the core's events completes and drops as many events as it has steps. -/
theorem runFor_of_coreFeed (n : Nat) {s : State} (h : ∀ ev ∈ s.feed, coreEvent ev = true) :
    ∃ t, runFor n s = .next t ∧ t.feed = s.feed.drop n := by
  induction n generalizing s with
  | zero => exact ⟨s, rfl, rfl⟩
  | succ n ih =>
    obtain ⟨u, hu, hfeed⟩ := step_of_coreFeed h
    obtain ⟨t, ht, hrest⟩ := ih (s := u) fun ev hev => h ev (List.mem_of_mem_tail (hfeed ▸ hev))
    exact ⟨t, (runFor_succ_of_next hu n).trans ht, by rw [hrest, hfeed, List.drop_tail]⟩

/-- Settles O48: a run as long as the feed drops all of it. -/
theorem coreEventsRunToTheEnd : Obligations.CoreEventsRunToTheEnd := by
  intro s h
  refine ⟨fun n => (runFor_of_coreFeed n h).imp fun _ ht => ht.1, ?_⟩
  obtain ⟨t, ht, hfeed⟩ := runFor_of_coreFeed s.feed.length h
  exact ⟨t, ht, hfeed.trans List.drop_length⟩

/-- A word that is no event of the core is refused by a name that carries it. -/
theorem step_of_not_coreEvent {s : State} {w : Word} {rest : List Event} (hf : s.feed = .word w :: rest)
    (hw : coreEvent (.word w) = false) :
    step s = .refused (.notCoreInstruction w) ∨ step s = .refused (.notCoreFunct w) := by
  cases hdec : decode w with
  | ok i => rw [coreEvent, hdec] at hw; cases hw
  | error r =>
    rw [step_of_decode_error hf hdec]
    cases r with
    | notCoreInstruction => exact .inl rfl
    | notCoreFunct => exact .inr rfl

/-- Settles O49, by induction on the events before the foreign word. -/
theorem runIsRefusedAtTheFirstForeignWord : Obligations.RunIsRefusedAtTheFirstForeignWord := by
  intro s pre post w n hf hpre hw hn
  obtain ⟨m, rfl⟩ := Nat.exists_eq_add_one_of_ne_zero (Nat.ne_of_gt (Nat.zero_lt_of_lt hn))
  induction pre generalizing s m with
  | nil =>
    exact (step_of_not_coreEvent hf hw).imp (runFor_succ_of_refused · m) (runFor_succ_of_refused · m)
  | cons ev pre ih =>
    obtain ⟨hev, hpre⟩ := List.forall_mem_cons.1 hpre
    obtain ⟨t, ht, hfeed⟩ := step_of_coreEvent hf hev
    rw [runFor_succ_of_next ht]
    have hlt : pre.length < m := Nat.lt_of_succ_lt_succ hn
    obtain ⟨k, rfl⟩ := Nat.exists_eq_add_one_of_ne_zero (Nat.ne_of_gt (Nat.zero_lt_of_lt hlt))
    exact ih t hfeed hpre k hlt

/-! ### Several cores side by side (R222) -/

/-- What a step of one core that answers a next list did: nothing, or a step of that core's own state. -/
theorem stepInstance_next_cases {k : Nat} {cores next : List State} (h : stepInstance k cores = .next next) :
    (cores[k]? = none ∧ next = cores) ∨
    (∃ s t, cores[k]? = some s ∧ step s = .next t ∧ next = cores.set k t) := by
  unfold stepInstance at h
  cases hk : cores[k]? with
  | none =>
    rw [hk] at h
    injection h with h
    exact .inl ⟨rfl, h.symm⟩
  | some s =>
    rw [hk] at h
    cases hstep : step s with
    | next t =>
      simp only [hstep] at h
      injection h with h
      exact .inr ⟨s, t, rfl, hstep, h.symm⟩
    | fault r => cases r
    | refused r => simp only [hstep] at h; cases h

/-- Settles O50: the list differs at most at the place of the core that moved. -/
theorem instancesShareNoState : Obligations.InstancesShareNoState := by
  intro k cores next h
  rcases stepInstance_next_cases h with ⟨hnone, rfl⟩ | ⟨s, t, hs, hstep, rfl⟩
  · exact ⟨rfl, fun _ _ => rfl, fun s hs => nomatch hnone.symm.trans hs⟩
  · refine ⟨List.length_set, fun j hj => List.getElem?_set_ne hj.symm, fun s' hs' => ?_⟩
    obtain rfl := Option.some.inj (hs.symm.trans hs')
    obtain ⟨hlt, -⟩ := List.getElem?_eq_some_iff.1 hs
    exact ⟨t, hstep, List.getElem?_set_self hlt⟩

end Sys2Proof.Machine
end
